-- ==== Sys2Proof/Word.lean ====
section
/-! DEFINITION. The word types of the block: bytes, 24-bit snapshots, command names, action codes and the two table index types (spec 00 R9, R10). -/

namespace Sys2Proof

/-- One byte of a record, a frame, a name or a datagram (00 R9). -/
abbrev Byte := BitVec 8

/-- A snapshot: a 24-bit unsigned value, bit 0 least significant (00 R9, 10 R21). -/
abbrev Snapshot := BitVec 24

/-- A command name: a byte string (30 R71). -/
abbrev CmdName := List Byte

/-- An action code, 0 to 4 (10 R31, 30 R78). -/
abbrev Action := Fin 5

/-- An index of the Name/Bit Table, 0 to 14 (20 R50 b). -/
abbrev SwIdx := Fin 15

/-- An index of a rotary position, 0 to 4 (20 R50 b). -/
abbrev RotIdx := Fin 5

end Sys2Proof
end

