-- ==== Sys2Proof/Syntax.lean ====
section
/-! DEFINITION. The instructions: one constructor per row of spec/opcode_table.json, seven input operations (30 R70) and three output message kinds (44 R181 to R183). -/

namespace Sys2Proof

/-- The operations presented to the block and the messages it produces, with the operands the table gives them. -/
inductive Instr where
  /-- CFGSW (40 R101): the index byte, not yet checked against 14, and the name. -/
  | cfgsw (idx : Byte) (name : CmdName)
  /-- CFGROT (40 R102). -/
  | cfgrot (name : CmdName)
  /-- CFGSTART (40 R103). -/
  | cfgstart (name : CmdName)
  /-- CFGGRT (40 R104). -/
  | cfggrt (name : CmdName)
  /-- CFGGPR (40 R105). -/
  | cfggpr (name : CmdName)
  /-- BUILD (40 R106). -/
  | build
  /-- FRAME (41 R120): the count and the four byte slots. -/
  | frame (n b0 b1 b2 b3 : Byte)
  /-- SWCMD (44 R181): output datagram, the name bytes and the bit `v`. -/
  | swcmd (name : CmdName) (v : Bool)
  /-- ROTCMD (44 R182): output datagram, the name bytes and the code. -/
  | rotcmd (name : CmdName) (code : Action)
  /-- STARTCMD (44 R183): output datagram, the name bytes and the bit `v`. -/
  | startcmd (name : CmdName) (v : Bool)
deriving DecidableEq, Repr

/-- The rows with format OUT: produced by the block, never presented to it (44, opcode_table.json). -/
def Instr.isOutput : Instr → Bool
  | .cfgsw _ _ => false
  | .cfgrot _ => false
  | .cfgstart _ => false
  | .cfggrt _ => false
  | .cfggpr _ => false
  | .build => false
  | .frame _ _ _ _ _ => false
  | .swcmd _ _ => true
  | .rotcmd _ _ => true
  | .startcmd _ _ => true

end Sys2Proof
end

