-- ==== Sys2Proof/WellFormed.lean ====
section
/-! DEFINITION. Which instruction terms have an encoding: names of at most NAME_MAX bytes (30 R71) and a frame count of at most 4 (20 R54). -/

namespace Sys2Proof

/-- `NAME_MAX` (00 R6, 30 R71). -/
def nameMax : Nat := 255

/-- A name that one length byte can announce (30 R71). -/
def nameFits (name : CmdName) : Bool := name.length ≤ nameMax

/-- The checks an instruction term meets exactly when it has an encoding (30 R71, R75, R76). -/
def wellFormed : Instr → Bool
  | .cfgsw _ name => nameFits name
  | .cfgrot name => nameFits name
  | .cfgstart name => nameFits name
  | .cfggrt name => nameFits name
  | .cfggpr name => nameFits name
  | .build => true
  | .frame n _ _ _ _ => n.toNat ≤ 4
  | .swcmd name _ => nameFits name
  | .rotcmd name _ => nameFits name
  | .startcmd name _ => nameFits name

end Sys2Proof
end

