-- ==== Sys2Proof/Decode.lean ====
section
/-! DEFINITION. Operation records to instructions and back (spec 30 R70 to R76, R83, R84), and command datagrams to (name, action) and back (30 R77 to R79). -/

namespace Sys2Proof

/-- Why no operation can be read from the record stream (30 R76). -/
inductive DecodeError where
  /-- Nothing is presented: the block waits (60 R220). -/
  | noRecord
  /-- A header byte with a bit of `[7:3]` set, or header 07. -/
  | reservedHeader
  /-- A FRAME record whose count is in 5..255. -/
  | reservedCount
  /-- A record that ends before its stated length. -/
  | truncated
deriving DecidableEq, Repr

/-! ### Fields -/

/-- Header bits `[7:3]`, reserved (30 R70). -/
def headerReserved (h : Byte) : BitVec 5 := h.extractLsb' 3 5

/-- Header bits `[2:0]`, the operation selector `op` (30 R70). -/
def headerOp (h : Byte) : BitVec 3 := h.extractLsb' 0 3

/-- The byte that says a length (30 R71). -/
def lengthByte (name : CmdName) : Byte := BitVec.ofNat 8 name.length

/-- A name payload, `L` and then `L` bytes, off the front of the stream (30 R71, R84 d). -/
def takeName : List Byte → Except DecodeError (CmdName × List Byte)
  | [] => .error .truncated
  | l :: rest =>
    if l.toNat ≤ rest.length then .ok (rest.take l.toNat, rest.drop l.toNat)
    else .error .truncated

/-- A record of the four one-name operations: the name read, `mk` applied to it (30 R73). -/
def decodeNamed (mk : CmdName → Instr) (bs : List Byte) : Except DecodeError (Instr × List Byte) :=
  match takeName bs with
  | .ok (name, rest) => .ok (mk name, rest)
  | .error e => .error e

/-- The payload of a CFGSW record (30 R72). -/
def decodeCfgsw : List Byte → Except DecodeError (Instr × List Byte)
  | [] => .error .truncated
  | idx :: rest => decodeNamed (.cfgsw idx) rest

/-- The payload of a FRAME record (30 R75); counts above 4 are reserved (20 R54). -/
def decodeFrame : List Byte → Except DecodeError (Instr × List Byte)
  | n :: b0 :: b1 :: b2 :: b3 :: rest =>
    if n.toNat ≤ 4 then .ok (.frame n b0 b1 b2 b3, rest) else .error .reservedCount
  | _ => .error .truncated

/-- The operation a header's selector names, read from the bytes after the header (the table of 30 R70). -/
def decodePayload (op : BitVec 3) (rest : List Byte) : Except DecodeError (Instr × List Byte) :=
  match op.toNat with
  | 0 => decodeCfgsw rest
  | 1 => decodeNamed .cfgrot rest
  | 2 => decodeNamed .cfgstart rest
  | 3 => decodeNamed .cfggrt rest
  | 4 => decodeNamed .cfggpr rest
  | 5 => .ok (.build, rest)
  | 6 => decodeFrame rest
  | _ => .error .reservedHeader

/-- One operation record off the front of the stream, with what follows it: records are self-delimiting (30 R83). -/
def decode : List Byte → Except DecodeError (Instr × List Byte)
  | [] => .error .noRecord
  | h :: rest =>
    if headerReserved h = 0#5 then decodePayload (headerOp h) rest else .error .reservedHeader

/-! ### Command datagrams -/

/-- The byte of an action digit, `0x30 + a` (30 R77, R78). -/
def digit (a : Action) : Byte := BitVec.ofNat 8 (0x30 + a.val)

/-- The action a digit byte stands for (30 R78). -/
def digitAction (d : Byte) : Option Action :=
  match d.toNat with
  | 0x30 => some 0
  | 0x31 => some 1
  | 0x32 => some 2
  | 0x33 => some 3
  | 0x34 => some 4
  | _ => none

/-- The action that carries a switch's or the starter's bit (30 R78). -/
def bitAction (v : Bool) : Action := if v then 1 else 0

/-- `enc(name, a)`: the name, a comma, the digit, a newline (30 R77). -/
def encodeCommand (name : CmdName) (a : Action) : List Byte :=
  name ++ [0x2C#8, digit a, 0x0A#8]

/-- The (name, action) a datagram stands for: its last three bytes are comma, digit, newline (30 R77). -/
def decodeCommand (bs : List Byte) : Option (CmdName × Action) :=
  match bs.reverse with
  | nl :: d :: comma :: revName =>
    if nl = 0x0A#8 ∧ comma = 0x2C#8 then (digitAction d).map fun a => (revName.reverse, a) else none
  | _ => none

/-- The three output kinds; the kind of a command is not in its datagram (44 R187). -/
inductive OutKind where
  | switch
  | rotary
  | starter
deriving DecidableEq, Repr

/-- The bit an action of a switch or starter command stands for; codes above 1 are no such command (44 R181, R183). -/
def actionBit (a : Action) : Option Bool :=
  if a = 0 then some false else if a = 1 then some true else none

/-- A datagram read as a message of the kind given (44 R181 to R183). -/
def decodeOut (k : OutKind) (bs : List Byte) : Option Instr :=
  match decodeCommand bs with
  | none => none
  | some (name, a) =>
    match k with
    | .switch => (actionBit a).map (.swcmd name)
    | .rotary => some (.rotcmd name a)
    | .starter => (actionBit a).map (.startcmd name)

/-- The kind of an output row; `none` for an input operation. -/
def outKind : Instr → Option OutKind
  | .swcmd _ _ => some .switch
  | .rotcmd _ _ => some .rotary
  | .startcmd _ _ => some .starter
  | .cfgsw _ _ => none
  | .cfgrot _ => none
  | .cfgstart _ => none
  | .cfggrt _ => none
  | .cfggpr _ => none
  | .build => none
  | .frame _ _ _ _ _ => none

/-! ### Encoder -/

/-- The bytes of an instruction: its operation record (30 R72 to R75) or its datagram (30 R77). -/
def encode : Instr → List Byte
  | .cfgsw idx name => 0x00#8 :: idx :: lengthByte name :: name
  | .cfgrot name => 0x01#8 :: lengthByte name :: name
  | .cfgstart name => 0x02#8 :: lengthByte name :: name
  | .cfggrt name => 0x03#8 :: lengthByte name :: name
  | .cfggpr name => 0x04#8 :: lengthByte name :: name
  | .build => [0x05#8]
  | .frame n b0 b1 b2 b3 => [0x06#8, n, b0, b1, b2, b3]
  | .swcmd name v => encodeCommand name (bitAction v)
  | .rotcmd name code => encodeCommand name code
  | .startcmd name v => encodeCommand name (bitAction v)

/-- The lengths of 30 R83 and R77. -/
def encodedLength : Instr → Nat
  | .cfgsw _ name => 3 + name.length
  | .cfgrot name => 2 + name.length
  | .cfgstart name => 2 + name.length
  | .cfggrt name => 2 + name.length
  | .cfggpr name => 2 + name.length
  | .build => 1
  | .frame _ _ _ _ _ => 6
  | .swcmd name _ => name.length + 3
  | .rotcmd name _ => name.length + 3
  | .startcmd name _ => name.length + 3

/-! ### Words as the opcode table numbers them -/

/-- The bytes of a table word: the first byte is bits 7..0, and the bits count on from it. -/
def wordBytes (nbits w : Nat) : List Byte :=
  (List.range ((nbits + 7) / 8)).map fun k => BitVec.ofNat 8 (w >>> (8 * k))

/-- Those bytes followed by zeros up to the longest record (CFGSW with a name of 255 bytes, 258). -/
def wordStream (nbits w : Nat) : List Byte :=
  wordBytes nbits w ++ List.replicate 258 0#8

/-- What `decode` reads from a table word. -/
def decodeTableWord (nbits w : Nat) : Option Instr :=
  match decode (wordStream nbits w) with
  | .ok (i, _) => some i
  | .error _ => none

/-- The bytes of the one record a table word starts; the word's own bytes where it starts none. -/
def wordRecord (nbits w : Nat) : List Byte :=
  match decode (wordStream nbits w) with
  | .ok (_, rest) => (wordStream nbits w).take ((wordStream nbits w).length - rest.length)
  | .error _ => wordBytes nbits w

end Sys2Proof
end

