-- ==== Sys2Proof/Config.lean ====
section
/-! DEFINITION. The parameters of an instance of the block (spec 00 R6 to R8) and the free values: constants without a body, of which nothing can be proved. -/

namespace Sys2Proof

/-- What a failed send does (44 R184; the spec's value is `fatal`, `continues` is left open for a model that wants it). -/
inductive SendErrPolicy where
  | fatal
  | continues
deriving DecidableEq, Repr

/-- The parameters of 00 R6: the Name/Bit Table, the rotary constants of 10 R26, the start position and the send-error policy. -/
structure Tables where
  /-- `BIT[0..14]`. -/
  bit : Vector Snapshot 15
  /-- `TAB_NAME[0..14]`; a label the block never reads, which the textual notation resolves (30 R81). -/
  tabName : Vector CmdName 15
  /-- `ROT[0..4]`. -/
  rot : Vector Snapshot 5
  /-- `ROT_CODE[0..4]`, each in 0..4 by its type (00 R7 e). -/
  rotCode : Vector Action 5
  /-- `START_IDX`. -/
  startIdx : RotIdx
  /-- `SEND_ERR_POLICY`. -/
  sendErrPolicy : SendErrPolicy
deriving DecidableEq, Repr

namespace Tables

/-- Exactly one bit set, within bits 23..0 (00 R7 a, b). -/
abbrev OneHot (v : Snapshot) : Prop := ∃ k : Fin 24, v = 1#24 <<< k.val

/-- The constraints of 00 R7 (a), (b), (c) on the masks; (d) follows and (e) is in the type. -/
abbrev MasksValid (tb : Tables) : Prop :=
  (∀ i : SwIdx, OneHot tb.bit[i]) ∧
  (∀ i j : SwIdx, tb.bit[i] = tb.bit[j] → i = j) ∧
  (∀ j : RotIdx, OneHot tb.rot[j]) ∧
  (∀ i j : RotIdx, tb.rot[i] = tb.rot[j] → i = j) ∧
  (∀ (i : SwIdx) (j : RotIdx), tb.bit[i] ≠ tb.rot[j])

/-- No two entries of the Name/Bit Table have the same name (00 R7 a: "name unique"). -/
abbrev NamesUnique (tb : Tables) : Prop := ∀ i j : SwIdx, tb.tabName[i] = tb.tabName[j] → i = j

/-- The constraints every instance meets (00 R7). -/
abbrev Valid (tb : Tables) : Prop := tb.MasksValid ∧ tb.NamesUnique

end Tables

namespace Config

/-- FREE VALUE (U13): the result of a send that `State.replies` does not script; `true` is ok. Log 4. -/
opaque freeReply : Nat → Bool

/-- FREE VALUE (U1, U2, D15): a choice that `State.choices` does not script. Log 3. -/
opaque freeChoice : Nat → Nat

/-- FREE VALUE (60 R213): `cur`, `prev` and `rot_val` after a fatal error. Log 5. -/
opaque freeSnapshot : Nat → Snapshot

/-- FREE VALUE (60 R213): `sw_last` after a fatal error. Log 5. -/
opaque freeBits : Nat → Vector Bool 15

end Config

end Sys2Proof
end

