-- ==== Sys2Proof/Machine/Reference.lean ====
section
/-! DEFINITION. The reference instance of spec 00 R8 (PRESUMED, log 1: 16 of its 20 masks and 3 of its 5 codes are not from the source; 93 G1). -/

namespace Sys2Proof.Machine

/-- `BIT[0..14]` of 00 R8. -/
def referenceBits : Vector Snapshot 15 :=
  #v[0x010000#24, 0x020000#24, 0x040000#24, 0x080000#24, 0x100000#24, 0x200000#24, 0x400000#24,
     0x800000#24, 0x000100#24, 0x000200#24, 0x000400#24, 0x000800#24, 0x001000#24, 0x000004#24,
     0x000008#24]

/-- The bytes of an ASCII text (00 R9). -/
def ascii (text : String) : List Byte :=
  text.toList.map fun c => BitVec.ofNat 8 c.toNat

/-- `TAB_NAME[0..14]` of 00 R8. -/
def referenceNames : Vector CmdName 15 :=
  #v[ascii "BATTERY", ascii "ALTERNATOR", ascii "AVIONICS", ascii "FUELPUMP", ascii "DEICE",
     ascii "PITOT", ascii "COWL", ascii "PANEL", ascii "BEACON", ascii "NAV", ascii "STROBE",
     ascii "TAXI", ascii "LANDING", ascii "GEARUP", ascii "GEARDOWN"]

/-- `ROT[0..4]` of 00 R8: MAGOFF, MAGR, MAGL, MAGBOTH, MAGSTART. -/
def referenceRot : Vector Snapshot 5 :=
  #v[0x002000#24, 0x004000#24, 0x008000#24, 0x000001#24, 0x000002#24]

/-- `ROT_CODE[0..4]` of 00 R8. -/
def referenceCodes : Vector Action 5 := #v[0, 1, 2, 3, 4]

/-- The reference instance, with the spec's send-error policy `fatal` (D13). -/
def referenceTables : Tables where
  bit := referenceBits
  tabName := referenceNames
  rot := referenceRot
  rotCode := referenceCodes
  startIdx := 4
  sendErrPolicy := .fatal

end Sys2Proof.Machine
end

