-- ==== Sys2Proof/Machine/State.lean ====
section
/-! DEFINITION. The machine's state (spec 10 R20), its reset value (10 R35, 70 R230), and the reasons a step can stop. -/

namespace Sys2Proof.Machine

/-- `phase` (10 R29): the sequencer state, encoded 0 to 3 in this order. -/
inductive Phase where
  | config
  | ready
  | run
  | fatal
deriving DecidableEq, Repr

/-- `fault_code` (10 R30, 60 R201): 0 to 6 in this order; the reserved value 7 is never produced and has no constructor (log 10). -/
inductive FaultCode where
  | noFault
  | cfgTooFew
  | cfgBadName
  | cfgMissing
  | unregisteredBit
  | rotaryKey
  | transport
deriving DecidableEq, Repr

/-- A command handed to the Command Emitter: (name, action) (10 R31). -/
structure Command where
  name : CmdName
  action : Action
deriving DecidableEq, Repr

/-- The environment's answer to one send (44 R180). -/
inductive SendReply where
  | ok
  | err
deriving DecidableEq, Repr

/-- A stop of the machine other than the spec's own fatal errors. It has no constructor: a fatal error is TAKEN, a next state in phase FATAL (60 R211, log 7), and the spec has no other fault; so no step answers `.fault`. -/
inductive Fault where
deriving DecidableEq, Repr

/-- An operation the block has no step for (60 R221, log 8). -/
inductive Refusal where
  /-- Raised by an arm of exec for an instruction that has no meaning yet; safe. No arm uses it. -/
  | notModelled (mnemonic : String)
  /-- Raised by the step when no record is presented: waiting is the absence of an operation (20 R55, 60 R220); safe. -/
  | noRecord
  /-- Raised by the step on a reserved header byte (30 R76: not accepted); safe. -/
  | reservedHeader
  /-- Raised by the step and by FRAME on a count in 5..255 (20 R54, 30 R76: not accepted); safe. -/
  | reservedCount
  /-- Raised by the step on a record that ends before its stated length (30 R76: not accepted); safe. -/
  | truncated
  /-- Raised by a meaning in a phase that does not accept the operation (10 R29, 60 R221: not accepted); safe. -/
  | notAccepted (mnemonic : String) (phase : Phase)
  /-- Raised by an output kind's meaning on a (name, action) the block cannot emit in that state (44 R187, log 9); safe. -/
  | neverEmitted (mnemonic : String)
deriving DecidableEq, Repr

/-- The state: the tuple of 10 R20, then the instance's constants (log 1), then the environment's side of a run (70 R243; logs 2, 3, 4) and the free-value counter. -/
structure State where
  /-- `cur` (10 R21). -/
  cur : Snapshot
  /-- `prev` (10 R22). -/
  prev : Snapshot
  /-- `sw_valid[0..14]` (10 R23). -/
  swValid : Vector Bool 15
  /-- `sw_cmd[0..14]` (10 R23). -/
  swCmd : Vector CmdName 15
  /-- `sw_last[0..14]` (10 R24). -/
  swLast : Vector Bool 15
  /-- `rot_val` (10 R25); zero for none. -/
  rotVal : Snapshot
  /-- `rot_cmd_valid` (10 R27). -/
  rotCmdValid : Bool
  /-- `rot_cmd` (10 R27). -/
  rotCmd : CmdName
  /-- `start_cmd_valid` (10 R27). -/
  startCmdValid : Bool
  /-- `start_cmd` (10 R27). -/
  startCmd : CmdName
  /-- `gear_retarget_valid` (10 R28). -/
  gearRetargetValid : Bool
  /-- `gear_retarget` (10 R28); read by no rule. -/
  gearRetarget : CmdName
  /-- `gear_primer_valid` (10 R28). -/
  gearPrimerValid : Bool
  /-- `gear_primer` (10 R28); read by no rule. -/
  gearPrimer : CmdName
  /-- `phase` (10 R29). -/
  phase : Phase
  /-- `fault_code` (10 R30). -/
  faultCode : FaultCode
  /-- `out` (10 R31), oldest first. -/
  out : List Command
  /-- The parameters of the instance (00 R6): constants, written by nothing (log 1). -/
  tables : Tables
  /-- MODEL: the record bytes the environment has still to present (30 R70, log 2). -/
  input : List Byte
  /-- MODEL: the environment's answers to the coming sends (U13, log 4). -/
  replies : List SendReply
  /-- MODEL: the environment's choices where a rule says "any order" or "choose" (70 R243, log 3). -/
  choices : List Nat
  /-- MODEL: the counter that indexes the free values of Config. -/
  tick : Nat
deriving DecidableEq, Repr

/-- The machine right after reset (10 R35, 70 R230), as the reference instance with nothing presented (logs 1 to 4). -/
def State.reset : State where
  cur := 0x000000#24
  prev := 0x000000#24
  swValid := Vector.replicate 15 false
  swCmd := Vector.replicate 15 []
  swLast := Vector.replicate 15 false
  rotVal := 0x000000#24
  rotCmdValid := false
  rotCmd := []
  startCmdValid := false
  startCmd := []
  gearRetargetValid := false
  gearRetarget := []
  gearPrimerValid := false
  gearPrimer := []
  phase := .config
  faultCode := .noFault
  out := []
  tables := referenceTables
  input := []
  replies := []
  choices := []
  tick := 0

end Sys2Proof.Machine
end

