-- ==== Sys2Proof/Machine/Flags.lean ====
section
/-! DEFINITION. The bit computations of the block: masks, the change word, the key, a switch's state, the configured set, and the numbers of phase and fault_code. There are no condition codes (spec 10 R30). -/

namespace Sys2Proof.Machine

/-- The bitwise OR of a list of masks. -/
def orAll (masks : List Snapshot) : Snapshot := masks.foldr (fun m acc => m ||| acc) 0#24

/-- `SWG_MASK`: the OR of `BIT[0..14]` (00 R6, D3). -/
def swgMask (tb : Tables) : Snapshot := orAll ((List.finRange 15).map fun i => tb.bit[i])

/-- `ROT_MASK`: the OR of `ROT[0..4]` (00 R6, D3). -/
def rotMask (tb : Tables) : Snapshot := orAll ((List.finRange 5).map fun j => tb.rot[j])

/-- `configured`: the entries with `sw_valid[i] = 1` (00 R10), here in index order. -/
def configured (s : State) : List SwIdx := (List.finRange 15).filter fun i => s.swValid[i]

/-- `popcount(sw_valid[14:0])` (40 R106). -/
def boundCount (s : State) : Nat := (configured s).length

/-- `cfg_mask`: the OR of `BIT[i]` over configured `i` (42 R142). -/
def cfgMask (s : State) : Snapshot := orAll ((configured s).map fun i => s.tables.bit[i])

/-- Whether a mask meets a word: `(m AND w) != 0`. -/
def meets (m w : Snapshot) : Bool := (m &&& w) != 0#24

/-- A switch's boolean state in a snapshot: bit set gives 1, else 0 (41 R123). -/
def switchState (tb : Tables) (c : Snapshot) (i : SwIdx) : Bool := meets tb.bit[i] c

/-- `changed`: `(c XOR p) AND SWG_MASK` (42 R140). -/
def changedWord (tb : Tables) (c p : Snapshot) : Snapshot := (c ^^^ p) &&& swgMask tb

/-- `hit`: the configured entries whose bit is in `changed` (42 R142). -/
def hits (s : State) (changed : Snapshot) : List SwIdx :=
  (configured s).filter fun i => meets s.tables.bit[i] changed

/-- The bits of `changed` that belong to no configured entry (42 R144). -/
def unregistered (s : State) (changed : Snapshot) : Snapshot := changed &&& ~~~(cfgMask s)

/-- `key`: `c AND ROT_MASK` (43 R160). -/
def rotKey (tb : Tables) (c : Snapshot) : Snapshot := c &&& rotMask tb

/-- `ROT_START`: `ROT[START_IDX]` (10 R26). -/
def rotStart (tb : Tables) : Snapshot := tb.rot[tb.startIdx]

/-- `rot_index(m)`: the `j` with `ROT[j] = m`, none where `m` is no rotary mask (10 R26). -/
def rotIndex (tb : Tables) (m : Snapshot) : Option RotIdx :=
  (List.finRange 5).find? fun j => tb.rot[j] = m

/-- `set_rot`: the positions asserted in a snapshot (41 R124). -/
def assertedRot (tb : Tables) (c : Snapshot) : List RotIdx :=
  (List.finRange 5).filter fun j => meets tb.rot[j] c

/-- The two bits of `phase` (10 R29). -/
def phaseBits : Phase → BitVec 2
  | .config => 0#2
  | .ready => 1#2
  | .run => 2#2
  | .fatal => 3#2

/-- The three bits of `fault_code` (60 R201). -/
def faultBits : FaultCode → BitVec 3
  | .noFault => 0#3
  | .cfgTooFew => 1#3
  | .cfgBadName => 2#3
  | .cfgMissing => 3#3
  | .unregisteredBit => 4#3
  | .rotaryKey => 5#3
  | .transport => 6#3

end Sys2Proof.Machine
end

