-- ==== Sys2Proof/Machine/Operands.lean ====
section
/-! DEFINITION. How an operation's operands are formed from record bytes (spec 30 R84, 20 R51 to R54). -/

namespace Sys2Proof.Machine

/-- `zext_24(b)` (00 R10). -/
def zext24 (b : Byte) : Snapshot := b.setWidth 24

/-- `snapshot(b)`: three bytes packed big-endian (20 R51); the fourth is padding and no operand (20 R52). -/
def packSnapshot (b0 b1 b2 : Byte) : Snapshot :=
  (zext24 b0 <<< 16) ||| (zext24 b1 <<< 8) ||| zext24 b2

/-- A count of 2 or fewer: no new data (20 R53). -/
def isShort (n : Byte) : Bool := n.toNat ≤ 2

/-- A count above 4: reserved (20 R54). -/
def isReservedCount (n : Byte) : Bool := 4 < n.toNat

/-- The Name/Bit Table entry an index byte names; 15 to 255 name none (30 R72, R84 b). -/
def tableIndex (idx : Byte) : Option SwIdx :=
  if h : idx.toNat < 15 then some ⟨idx.toNat, h⟩ else none

end Sys2Proof.Machine
end

