-- ==== Sys2Proof/Machine/Ops.lean ====
section
/-! DEFINITION. The shared operations: named register writes, taking a fatal error (spec 60 R211, R213), emitting a command (44 R180, R184), drawing a free choice, visiting a set in an open order (00 R10), fetching a record, reset. -/

namespace Sys2Proof.Machine

/-! ### Named writes -/

/-- `sw_last[i] <- v`. -/
def State.writeLast (s : State) (i : SwIdx) (v : Bool) : State := { s with swLast := s.swLast.set i v }

/-- `sw_cmd[i] <- name` and `sw_valid[i] <- 1` (40 R101). -/
def State.bindSwitch (s : State) (i : SwIdx) (name : CmdName) : State :=
  { s with swCmd := s.swCmd.set i name, swValid := s.swValid.set i true }

/-- `rot_val <- m`. -/
def State.writeRot (s : State) (m : Snapshot) : State := { s with rotVal := m }

/-- `out <- out ++ [(name, a)]` (44 R180). -/
def State.sent (s : State) (name : CmdName) (a : Action) : State := { s with out := s.out ++ [⟨name, a⟩] }

/-- The environment's script of replies moves on. -/
def State.withReplies (s : State) (rs : List SendReply) : State := { s with replies := rs }

/-- The environment's script of choices moves on. -/
def State.withChoices (s : State) (ks : List Nat) : State := { s with choices := ks }

/-- The free-value counter moves on by `k`. -/
def State.ticked (s : State) (k : Nat) : State := { s with tick := s.tick + k }

/-! ### Fatal errors -/

/-- `raise Fatal(code)` (60 R211): the code is recorded and the phase is FATAL; `cur`, `prev`, `sw_last` and `rot_val` are unspecified afterwards (60 R213, DESIGN CHOICE log 5: free values). Everything else stands. -/
def raiseFatal (code : FaultCode) (s : State) : State :=
  { s with
    faultCode := code
    phase := .fatal
    cur := Config.freeSnapshot s.tick
    prev := Config.freeSnapshot (s.tick + 1)
    rotVal := Config.freeSnapshot (s.tick + 2)
    swLast := Config.freeBits s.tick
    tick := s.tick + 3 }

/-- Where an operation stands between two of its statements: going on, or ended by a fatal error (60 R211: no later statement of it runs). -/
inductive Flow where
  | on (s : State)
  | dead (s : State)
deriving DecidableEq, Repr

/-- The state an operation's run has reached. -/
def flowState : Flow → State
  | .on s => s
  | .dead s => s

/-- The next statement, which runs only if no fatal error has ended the operation. -/
def andThen (f : Flow) (k : State → Flow) : Flow :=
  match f with
  | .on s => k s
  | .dead s => .dead s

/-- `raise Fatal(code)` as a statement. -/
def fatal (code : FaultCode) (s : State) : Flow := .dead (raiseFatal code s)

/-! ### Free choices -/

/-- The environment's next choice (70 R243): the script's, or a free value once it is used up (log 3). -/
def nextChoice (s : State) : Nat :=
  match s.choices with
  | k :: _ => k
  | [] => Config.freeChoice s.tick

/-- The state after a choice has been taken. -/
def afterChoice (s : State) : State :=
  match s.choices with
  | _ :: ks => s.withChoices ks
  | [] => s.ticked 1

/-- The order numbered `k` of a list; every order has a number (`Obligations.EveryOpenChoiceIsAdmitted`), so a free `k` is a free order (00 R10 "in any order"). -/
def arrange {α : Type} : Nat → List α → List α
  | _, [] => []
  | k, a :: l => (arrange (k / (l.length + 1)) l).insertIdx (k % (l.length + 1)) a

/-- The member numbered `k` of the non-empty list `j :: l` (00 R10 "choose"). -/
def chooseFrom {α : Type} (k : Nat) (j : α) (l : List α) : α := (j :: l).getD (k % (l.length + 1)) j

/-- `for x in <the list's order>`: the body once per member, until a fatal error ends it. -/
def forEach {α : Type} (body : α → State → Flow) : List α → State → Flow
  | [], s => .on s
  | a :: l, s => andThen (body a s) (forEach body l)

/-! ### Emission -/

/-- The environment's answer to the next send (44 R180, U13): the script's, or a free value once it is used up (log 4). -/
def nextReply (s : State) : SendReply :=
  match s.replies with
  | r :: _ => r
  | [] => if Config.freeReply s.tick then .ok else .err

/-- The state after a send has been answered. -/
def afterReply (s : State) : State :=
  match s.replies with
  | _ :: rs => s.withReplies rs
  | [] => s.ticked 1

/-- `send_error()` under the instance's policy (44 R184). -/
def sendError (s : State) : Flow :=
  match s.tables.sendErrPolicy with
  | .fatal => fatal .transport s
  | .continues => .on s

/-- `emit(name, a)` (44 R180): one datagram; ok appends it to `out`, err is a send error. -/
def emit (name : CmdName) (a : Action) (s : State) : Flow :=
  match nextReply s with
  | .ok => .on ((afterReply s).sent name a)
  | .err => sendError (afterReply s)

/-- The bytes of a command's datagram (10 R31, 30 R77). -/
def datagram (c : Command) : List Byte := encodeCommand c.name c.action

/-! ### Fetch and reset -/

/-- The refusal that names why no operation starts (30 R76, 60 R221). -/
def decodeRefusal : DecodeError → Refusal
  | .noRecord => .noRecord
  | .reservedHeader => .reservedHeader
  | .reservedCount => .reservedCount
  | .truncated => .truncated

/-- The next operation of the record stream, and the state with its record taken (20 R55, 30 R70). -/
def fetch (s : State) : Except Refusal (Instr × State) :=
  match decode s.input with
  | .ok (i, rest) => .ok (i, { s with input := rest })
  | .error e => .error (decodeRefusal e)

/-- Reset applied in any state (70 R230): every piece of 10 R20 at its reset value. The instance's constants and the environment's side of the run are not the block's and stand (DESIGN CHOICE, log 13). -/
def resetBlock (s : State) : State :=
  { State.reset with
    tables := s.tables
    input := s.input
    replies := s.replies
    choices := s.choices
    tick := s.tick }

end Sys2Proof.Machine
end

