-- ==== Sys2Proof/Machine/ConfigOps.lean ====
section
/-! DEFINITION. The configuration operations and construction (spec 40): CFGSW, CFGROT, CFGSTART, CFGGRT, CFGGPR, BUILD. -/

namespace Sys2Proof.Machine

/-- An operation of this family is accepted only in phase CONFIG (40 R100); elsewhere the block has no step for it (60 R221). -/
def inConfig (mnemonic : String) (s t : State) : Host.Outcome State Fault Refusal :=
  if s.phase = .config then .next t else .refused (.notAccepted mnemonic s.phase)

/-- CFGSW (40 R101). -/
def execCfgsw (idx : Byte) (name : CmdName) (s : State) : Host.Outcome State Fault Refusal :=
  inConfig "CFGSW" s
    (match tableIndex idx with
     | some i => s.bindSwitch i name
     | none => raiseFatal .cfgBadName s)

/-- CFGROT (40 R102). -/
def execCfgrot (name : CmdName) (s : State) : Host.Outcome State Fault Refusal :=
  inConfig "CFGROT" s { s with rotCmd := name, rotCmdValid := true }

/-- CFGSTART (40 R103). -/
def execCfgstart (name : CmdName) (s : State) : Host.Outcome State Fault Refusal :=
  inConfig "CFGSTART" s { s with startCmd := name, startCmdValid := true }

/-- CFGGRT (40 R104). -/
def execCfggrt (name : CmdName) (s : State) : Host.Outcome State Fault Refusal :=
  inConfig "CFGGRT" s { s with gearRetarget := name, gearRetargetValid := true }

/-- CFGGPR (40 R105). -/
def execCfggpr (name : CmdName) (s : State) : Host.Outcome State Fault Refusal :=
  inConfig "CFGGPR" s { s with gearPrimer := name, gearPrimerValid := true }

/-- The fewest entries a configuration must bind, `N_SW_MIN` (00 R6). -/
def minBound : Nat := 13

/-- The state BUILD leaves: the first failing check raised (60 R210), else the seeds and phase READY (40 R106). -/
def buildState (s : State) : State :=
  if boundCount s < minBound then raiseFatal .cfgTooFew s
  else if s.rotCmdValid = false ∨ s.startCmdValid = false then raiseFatal .cfgMissing s
  else { s with swLast := Vector.replicate 15 false, rotVal := 0x000000#24, phase := .ready }

/-- BUILD (40 R106). -/
def execBuild (s : State) : Host.Outcome State Fault Refusal :=
  inConfig "BUILD" s (buildState s)

end Sys2Proof.Machine
end

