-- ==== Sys2Proof/Machine/Rotary.lean ====
section
/-! DEFINITION. The rotary-selector state machine, the second half of `process` (spec 43 R160 to R172). -/

namespace Sys2Proof.Machine

/-- Step 3, leaving "start": the starter deactivation goes out first (43 R163). -/
def leaveStart (s : State) : Flow :=
  if s.rotVal = rotStart s.tables then emit s.startCmd 0 s else .on s

/-- Steps 4 and 5: `rot_val <- key`, then the rotary command with the new position's code (43 R164, R165). -/
def takePosition (key : Snapshot) (j : RotIdx) (s : State) : Flow :=
  emit s.rotCmd s.tables.rotCode[j] (s.writeRot key)

/-- Step 6, entering "start": the starter activation (43 R166). -/
def enterStart (key : Snapshot) (s : State) : Flow :=
  if key = rotStart s.tables then emit s.startCmd 1 s else .on s

/-- A key that is no single position: `Fatal(ROTARY_KEY)` (43 R162); whether the step-3 deactivation goes out before it is open (60 R213), so a choice decides. DESIGN CHOICE (log 6): where the deactivation is chosen and its send fails under the policy `fatal`, the operation ends there with `Fatal(TRANSPORT)` and ROTARY_KEY is not raised. -/
def badKey (s : State) : Flow :=
  if nextChoice s % 2 = 0 then fatal .rotaryKey (afterChoice s)
  else andThen (leaveStart (afterChoice s)) (fatal .rotaryKey)

/-- `rotary_step(c)` (43 R167). -/
def rotaryStep (c : Snapshot) (s : State) : Flow :=
  let key := rotKey s.tables c
  if key = 0#24 ∨ key = s.rotVal then .on s
  else
    match rotIndex s.tables key with
    | none => badKey s
    | some j => andThen (andThen (leaveStart s) (takePosition key j)) (enterStart key)

end Sys2Proof.Machine
end

