-- ==== Sys2Proof/Machine/SwitchScan.lean ====
section
/-! DEFINITION. Switch edge detection, the first half of `process` (spec 42 R140 to R148). -/

namespace Sys2Proof.Machine

/-- `sw_last[i] <- NOT sw_last[i]`, then `emit(sw_cmd[i], sw_last[i])` with the new value (42 R142). -/
def flipAndEmit (i : SwIdx) (s : State) : Flow :=
  emit s.swCmd[i] (bitAction (!s.swLast[i])) (s.writeLast i (!s.swLast[i]))

/-- The loop of 42 R142 over the entries in the order given, with the early exit of R143. -/
def scanLoop (changed : Snapshot) : List SwIdx → State → Flow
  | [], s => .on s
  | i :: rest, s =>
    if meets s.tables.bit[i] changed then
      andThen (flipAndEmit i s) fun t =>
        if t.tables.bit[i] = changed then .on t else scanLoop changed rest t
    else scanLoop changed rest s

/-- The entries a faulting scan handles before the fault: some subset of `hit`, in some order (42 R144, D15, log 6), as the first `m` of an order of `hit`. -/
def faultingPart (k m : Nat) (hit : List SwIdx) : List SwIdx :=
  (arrange k hit).take (m % (hit.length + 1))

/-- A scan that meets a changed bit of an unconfigured entry: some of the hits, then `Fatal(UNREGISTERED_BIT)` (42 R144). A send of the chosen part that fails under the policy `fatal` ends the operation first, with `Fatal(TRANSPORT)` (60 R210, log 6). -/
def faultingScan (changed : Snapshot) (s : State) : Flow :=
  let m := nextChoice (afterChoice s)
  andThen (scanLoop changed (faultingPart (nextChoice s) m (hits s changed)) (afterChoice (afterChoice s)))
    (fatal .unregisteredBit)

/-- `switch_scan(c, p)` (42 R142). -/
def switchScan (c p : Snapshot) (s : State) : Flow :=
  let changed := changedWord s.tables c p
  if changed = 0#24 then .on s
  else if unregistered s changed = 0#24 then
    scanLoop changed (arrange (nextChoice s) (configured s)) (afterChoice s)
  else faultingScan changed s

end Sys2Proof.Machine
end

