-- ==== Sys2Proof/Machine/FrameOps.lean ====
section
/-! DEFINITION. The FRAME operation, initialisation and change processing (spec 41). -/

namespace Sys2Proof.Machine

/-- One turn of the switch pass: the entry's state in the snapshot is recorded and sent (41 R123). -/
def initSwitch (c : Snapshot) (i : SwIdx) (s : State) : Flow :=
  emit s.swCmd[i] (bitAction (switchState s.tables c i)) (s.writeLast i (switchState s.tables c i))

/-- `initialise(S)`, switch pass: every configured entry, in any order (41 R123). -/
def initSwitches (c : Snapshot) (s : State) : Flow :=
  forEach (initSwitch c) (arrange (nextChoice s) (configured s)) (afterChoice s)

/-- `initialise(S)`, rotary pass: one of the asserted positions, if any, becomes active and its code is sent (41 R124); no starter command, even in "start". -/
def initRotary (c : Snapshot) (s : State) : Flow :=
  match assertedRot s.tables c with
  | [] => .on s
  | j0 :: js =>
    let j := chooseFrom (nextChoice s) j0 js
    emit s.rotCmd s.tables.rotCode[j] ((afterChoice s).writeRot s.tables.rot[j])

/-- `initialise(S)`: the switch pass, then the rotary pass (41 R125, D11). -/
def initialise (c : Snapshot) (s : State) : Flow := andThen (initSwitches c s) (initRotary c)

/-- `process(current, previous)`: the switch scan, then the rotary step (41 R128, D11). -/
def process (c p : Snapshot) (s : State) : Flow := andThen (switchScan c p s) (rotaryStep c)

/-- FRAME.INIT (41 R122). -/
def frameInit (c : Snapshot) (s : State) : Flow :=
  andThen (initialise c { s with cur := c }) fun t => .on { t with prev := t.cur, phase := .run }

/-- FRAME.PROC (41 R127). -/
def frameProc (c : Snapshot) (s : State) : Flow :=
  andThen (process c s.prev { s with cur := c }) fun t => .on { t with prev := t.cur }

/-- FRAME (41 R120): a reserved count or a phase that does not accept it has no step (30 R76, 60 R221); a short frame changes nothing (R121); else FRAME.INIT or FRAME.PROC by phase. -/
def execFrame (n b0 b1 b2 _b3 : Byte) (s : State) : Host.Outcome State Fault Refusal :=
  if isReservedCount n then .refused .reservedCount
  else
    match s.phase with
    | .config => .refused (.notAccepted "FRAME" .config)
    | .fatal => .refused (.notAccepted "FRAME" .fatal)
    | .ready => .next (if isShort n then s else flowState (frameInit (packSnapshot b0 b1 b2) s))
    | .run => .next (if isShort n then s else flowState (frameProc (packSnapshot b0 b1 b2) s))

end Sys2Proof.Machine
end

