-- ==== Sys2Proof/Machine/OutputOps.lean ====
section
/-! DEFINITION. The output message kinds (spec 44 R181 to R183, R187): the block's one emission of a SWCMD, a ROTCMD or a STARTCMD (DESIGN CHOICE, log 9). -/

namespace Sys2Proof.Machine

/-- SWCMD (44 R181): the name of a configured entry with a bit, emitted by `initialise` (phase READY) and the switch scan (phase RUN). -/
def execSwcmd (name : CmdName) (v : Bool) (s : State) : Host.Outcome State Fault Refusal :=
  if s.phase = .ready ∨ s.phase = .run then
    if (configured s).any fun i => s.swCmd[i] = name then .next (flowState (emit name (bitAction v) s))
    else .refused (.neverEmitted "SWCMD")
  else .refused (.notAccepted "SWCMD" s.phase)

/-- ROTCMD (44 R182): `rot_cmd` with the code of a position, emitted by `initialise` and the rotary step. -/
def execRotcmd (name : CmdName) (code : Action) (s : State) : Host.Outcome State Fault Refusal :=
  if s.phase = .ready ∨ s.phase = .run then
    if name = s.rotCmd ∧ (List.finRange 5).any (fun j => s.tables.rotCode[j] = code) then
      .next (flowState (emit name code s))
    else .refused (.neverEmitted "ROTCMD")
  else .refused (.notAccepted "ROTCMD" s.phase)

/-- STARTCMD (44 R183): `start_cmd` with a bit, emitted by the rotary step only. -/
def execStartcmd (name : CmdName) (v : Bool) (s : State) : Host.Outcome State Fault Refusal :=
  if s.phase = .run then
    if name = s.startCmd then .next (flowState (emit name (bitAction v) s))
    else .refused (.neverEmitted "STARTCMD")
  else .refused (.notAccepted "STARTCMD" s.phase)

end Sys2Proof.Machine
end

