-- ==== Sys2Proof/Machine/Dispatch.lean ====
section
/-! DEFINITION. One arm per row of the opcode table: each a direct call of the instruction's meaning. -/

namespace Sys2Proof.Machine

def exec (i : Instr) (s : State) : Host.Outcome State Fault Refusal :=
  match i with
  | .cfgsw idx name => Sys2Proof.Machine.execCfgsw idx name s
  | .cfgrot name => Sys2Proof.Machine.execCfgrot name s
  | .cfgstart name => Sys2Proof.Machine.execCfgstart name s
  | .cfggrt name => Sys2Proof.Machine.execCfggrt name s
  | .cfggpr name => Sys2Proof.Machine.execCfggpr name s
  | .build => Sys2Proof.Machine.execBuild s
  | .frame n b0 b1 b2 b3 => Sys2Proof.Machine.execFrame n b0 b1 b2 b3 s
  | .swcmd name v => Sys2Proof.Machine.execSwcmd name v s
  | .rotcmd name code => Sys2Proof.Machine.execRotcmd name code s
  | .startcmd name v => Sys2Proof.Machine.execStartcmd name v s

end Sys2Proof.Machine
end

