-- ==== Sys2Proof/Machine/Step.lean ====
section
/-! DEFINITION. One step: the next operation of the record stream, taken and executed (spec 00 R11, 20 R55). -/

namespace Sys2Proof.Machine

/-- The block's one step. Where the stream starts no operation the block has no step (30 R76, 60 R220, R221). -/
def step (s : State) : Host.Outcome State Fault Refusal :=
  match fetch s with
  | .ok (i, t) => exec i t
  | .error r => .refused r

/-- The record of a table word put where `step` takes its next operation: at the front of the stream (log 2). -/
def State.withFetchWord (s : State) (nbits w : Nat) : State :=
  { s with input := wordRecord nbits w ++ s.input }

end Sys2Proof.Machine
end

