-- ==== Sys2Proof/Machine/Text.lean ====
section
/-! DEFINITION. The textual notation of operations and the pseudo-operations (spec 30 R81, R82, D24). -/

namespace Sys2Proof.Machine

/-- `SNAP`: a valid four-byte frame giving that snapshot (30 R82). -/
def snap (v : Snapshot) : Instr :=
  .frame 4 (v.extractLsb' 16 8) (v.extractLsb' 8 8) (v.extractLsb' 0 8) 0

/-- `SNAP3`: the same as a three-byte read (30 R82). -/
def snap3 (v : Snapshot) : Instr :=
  .frame 3 (v.extractLsb' 16 8) (v.extractLsb' 8 8) (v.extractLsb' 0 8) 0

/-- `SHORT`: a read that yielded nothing (30 R82). -/
def shortRead : Instr := .frame 0 0 0 0 0

/-- `SHORT2`: a read that yielded two bytes (30 R82). -/
def shortRead2 (b0 b1 : Byte) : Instr := .frame 2 b0 b1 0 0

/-- The index a `TAB_NAME` stands for in an instance (30 R81). -/
def resolveName (tb : Tables) (name : CmdName) : Option SwIdx :=
  (List.finRange 15).find? fun i => tb.tabName[i] = name

/-- One upper-case hex digit. -/
def hexDigit (n : Nat) : Char :=
  if n < 10 then Char.ofNat (0x30 + n) else Char.ofNat (0x37 + n)

/-- A byte as two hex digits (30 R81). -/
def hexByte (b : Byte) : List Char := [hexDigit (b.toNat / 16), hexDigit (b.toNat % 16)]

/-- A byte string as the characters of its codes. -/
def chars (bs : List Byte) : List Char := bs.map fun b => Char.ofNat b.toNat

/-- A name in double quotes (30 R81). -/
def quoted (bs : List Byte) : List Char := '"' :: chars bs ++ ['"']

/-- A command's quoted text with the newline shown as the two characters backslash and n (30 R81). -/
def quotedCommand (name : CmdName) (a : Action) : List Char :=
  '"' :: chars name ++ [',', hexDigit a.val, '\\', 'n', '"']

/-- An instruction in the notation of 30 R81, the index in decimal. -/
def render : Instr → List Char
  | .cfgsw idx name => "CFGSW ".toList ++ (toString idx.toNat).toList ++ ", ".toList ++ quoted name
  | .cfgrot name => "CFGROT ".toList ++ quoted name
  | .cfgstart name => "CFGSTART ".toList ++ quoted name
  | .cfggrt name => "CFGGRT ".toList ++ quoted name
  | .cfggpr name => "CFGGPR ".toList ++ quoted name
  | .build => "BUILD".toList
  | .frame n b0 b1 b2 b3 =>
    "FRAME ".toList ++ (toString n.toNat).toList ++ ", ".toList ++ hexByte b0 ++ [' '] ++ hexByte b1 ++
      [' '] ++ hexByte b2 ++ [' '] ++ hexByte b3
  | .swcmd name v => quotedCommand name (bitAction v)
  | .rotcmd name code => quotedCommand name code
  | .startcmd name v => quotedCommand name (bitAction v)

end Sys2Proof.Machine
end

