-- ==== Sys2Proof/Safety.lean ====
section
/-! DEFINITION. The vocabulary of the claims: observables, faulted states, what an operation may not touch, the machine invariant, and the command lists the rules name. -/

namespace Sys2Proof.Machine

/-- All an observer sees: `phase`, `fault_code`, `out` (10 R31, R33; 70 R243). -/
def observe (s : State) : Phase × FaultCode × List Command := (s.phase, s.faultCode, s.out)

/-- A faulted state, never a final one (60 R213, 70 R243). -/
abbrev Faulted (s : State) : Prop := s.phase = .fatal

/-- The configuration registers agree (10 R23, R27, R28; 40 R108). -/
abbrev SameConfig (s t : State) : Prop :=
  t.swValid = s.swValid ∧ t.swCmd = s.swCmd ∧
  t.rotCmdValid = s.rotCmdValid ∧ t.rotCmd = s.rotCmd ∧
  t.startCmdValid = s.startCmdValid ∧ t.startCmd = s.startCmd ∧
  t.gearRetargetValid = s.gearRetargetValid ∧ t.gearRetarget = s.gearRetarget ∧
  t.gearPrimerValid = s.gearPrimerValid ∧ t.gearPrimer = s.gearPrimer

/-- The next `k` sends are answered ok (95: "every vector assumes every send returns ok"). -/
abbrev SendsOk (s : State) (k : Nat) : Prop := s.replies.take k = List.replicate k SendReply.ok

/-- A valid frame: three or four bytes (20 R54). -/
abbrev ValidCount (n : Byte) : Prop := n.toNat = 3 ∨ n.toNat = 4

/-- The SWCMD for an entry with a bit (44 R181). -/
def switchCommand (s : State) (v : SwIdx → Bool) (i : SwIdx) : Command := ⟨s.swCmd[i], bitAction (v i)⟩

/-- The SWCMD of `initialise` for an entry: its state in the snapshot (41 R123). -/
def stateCommand (s : State) (c : Snapshot) (i : SwIdx) : Command :=
  switchCommand s (switchState s.tables c) i

/-- The SWCMD of the scan for an entry: the flipped last-sent bit (42 R142). -/
def flipCommand (s : State) (i : SwIdx) : Command := switchCommand s (fun i => !s.swLast[i]) i

/-- The commands of a move to position `j`, in order (43 R170). -/
def moveCommands (s : State) (j : RotIdx) : List Command :=
  (if s.rotVal = rotStart s.tables then [⟨s.startCmd, 0⟩] else []) ++
  [⟨s.rotCmd, s.tables.rotCode[j]⟩] ++
  (if s.tables.rot[j] = rotStart s.tables then [⟨s.startCmd, 1⟩] else [])

/-- A sequence `initialise` may emit: the configured entries' states in some order, then the code of an asserted position where there is one (41 R123, R124). -/
def InitialEmission (s : State) (c : Snapshot) (l : List Command) : Prop :=
  ∃ sw rc, l = sw ++ rc ∧ sw.Perm ((configured s).map (stateCommand s c)) ∧
    (((∀ j : RotIdx, c &&& s.tables.rot[j] = 0#24) ∧ rc = []) ∨
     (∃ j : RotIdx, c &&& s.tables.rot[j] ≠ 0#24 ∧ rc = [⟨s.rotCmd, s.tables.rotCode[j]⟩]))

/-- A sequence `process` may emit: the hits' flips in some order, then what the rotary step sends for the key; for a key that is no position, at most the deactivation of step 3 (42 R142, R144, 43 R162, R167, 60 R213). -/
def ChangeEmission (s : State) (c : Snapshot) (l : List Command) : Prop :=
  ∃ sw rc, l = sw ++ rc ∧ sw.Perm ((hits s (changedWord s.tables c s.prev)).map (flipCommand s)) ∧
    (((rotKey s.tables c = 0#24 ∨ rotKey s.tables c = s.rotVal) ∧ rc = []) ∨
     (∃ j : RotIdx, rotKey s.tables c = s.tables.rot[j] ∧ rotKey s.tables c ≠ s.rotVal ∧ rc = moveCommands s j) ∨
     (rotKey s.tables c ≠ 0#24 ∧ rotKey s.tables c ≠ s.rotVal ∧ (∀ j : RotIdx, rotKey s.tables c ≠ s.tables.rot[j]) ∧
       (rc = [] ∨ (s.rotVal = rotStart s.tables ∧ rc = [⟨s.startCmd, 0⟩]))))

/-- A command the block may emit: a SWCMD, ROTCMD or STARTCMD (44 R187). -/
def Emittable (s : State) (c : Command) : Prop :=
  (∃ i v, s.swValid[(i : SwIdx)] = true ∧ c = ⟨s.swCmd[i], bitAction v⟩) ∨
  (∃ j : RotIdx, c = ⟨s.rotCmd, s.tables.rotCode[j]⟩) ∨
  (∃ v, c = ⟨s.startCmd, bitAction v⟩)

/-- The scan's loop without the early exit of 42 R143: every entry visited. -/
def scanAll (changed : Snapshot) : List SwIdx → State → Flow :=
  forEach fun i s => if meets s.tables.bit[i] changed then flipAndEmit i s else .on s

/-- Two snapshots that agree on every bit of `SWG_MASK` and `ROT_MASK` (20 R65). -/
abbrev SameMasked (tb : Tables) (v w : Snapshot) : Prop :=
  v &&& (swgMask tb ||| rotMask tb) = w &&& (swgMask tb ||| rotMask tb)

/-- The state without the two gear names, which no rule reads (10 R28). -/
def forgetGear (s : State) : State :=
  { s with gearRetargetValid := false, gearRetarget := [], gearPrimerValid := false, gearPrimer := [] }

/-- `forgetGear` on an outcome. -/
def forgetGearOutcome : Host.Outcome State Fault Refusal → Host.Outcome State Fault Refusal
  | .next s => .next (forgetGear s)
  | .fault r => .fault r
  | .refused r => .refused r

/-- The machine invariant: what holds at reset and after every step. -/
structure Inv (s : State) : Prop where
  /-- 00 R7. -/
  tablesValid : s.tables.Valid
  /-- 10 R30: `fault_code` is 0 exactly while `phase` is not FATAL. -/
  faultIffFatal : s.faultCode = .noFault ↔ s.phase ≠ .fatal
  /-- 10 R25, 43 R168. -/
  rotLegal : s.phase ≠ .fatal → s.rotVal = 0#24 ∨ ∃ j : RotIdx, s.rotVal = s.tables.rot[j]
  /-- 10 R36. -/
  lastMirrorsPrev : s.phase = .run → ∀ i : SwIdx, s.swValid[i] = true → s.swLast[i] = switchState s.tables s.prev i
  /-- 10 R22: between operations of phase RUN `prev` is the snapshot just processed. -/
  prevIsCur : s.phase = .run → s.prev = s.cur
  /-- 40 R106: what BUILD has checked. -/
  built : s.phase = .ready ∨ s.phase = .run → 13 ≤ boundCount s ∧ s.rotCmdValid = true ∧ s.startCmdValid = true
  /-- 40 R100, 10 R24, R25: before the first valid frame nothing has been sent and the seeds stand. -/
  unsent : s.phase = .config ∨ s.phase = .ready → s.out = [] ∧ s.rotVal = 0#24 ∧ ∀ i : SwIdx, s.swLast[i] = false
  /-- 10 R24, 41 R123 (c): an unconfigured entry keeps 0. -/
  unboundLast : s.phase ≠ .fatal → ∀ i : SwIdx, s.swValid[i] = false → s.swLast[i] = false
  /-- 10 R20, 30 R71: names have at most NAME_MAX bytes. -/
  namesFit : (∀ i : SwIdx, nameFits s.swCmd[i] = true) ∧ nameFits s.rotCmd = true ∧ nameFits s.startCmd = true ∧
    nameFits s.gearRetarget = true ∧ nameFits s.gearPrimer = true

end Sys2Proof.Machine
end

