-- ==== Sys2Proof/Certificates/Slice0/Obligations.lean ====
section
/-! DEFINITION. The statements of this package, one `def Obligations.<Name> : Prop` each, stated from the numbered rules of spec/.
`input`, `replies`, `choices` and `tick` are the model's own fields for the environment's side of a run (70 R243; logs 2, 3, 4): a premise `SendsOk s k` says that the environment answers the next `k` sends ok, and a clause on `t.replies` says how many answers were used. -/

open Sys2Proof Sys2Proof.Machine

/-! ### Encodings (30) -/

/-- The words of 30 R70, R72 to R75 and the datagrams of 95 section 2.7 read as the operations and messages they stand for. -/
def Obligations.SpecWordsDecode : Prop :=
  decode [0x00, 0x00, 0x07, 0x62, 0x61, 0x74, 0x74, 0x65, 0x72, 0x79]
    = .ok (.cfgsw 0 [0x62, 0x61, 0x74, 0x74, 0x65, 0x72, 0x79], []) ∧
  decode [0x01, 0x07, 0x6D, 0x61, 0x67, 0x6E, 0x65, 0x74, 0x6F]
    = .ok (.cfgrot [0x6D, 0x61, 0x67, 0x6E, 0x65, 0x74, 0x6F], []) ∧
  decode [0x02, 0x07, 0x73, 0x74, 0x61, 0x72, 0x74, 0x65, 0x72]
    = .ok (.cfgstart [0x73, 0x74, 0x61, 0x72, 0x74, 0x65, 0x72], []) ∧
  decode [0x03, 0x04, 0x67, 0x65, 0x61, 0x72] = .ok (.cfggrt [0x67, 0x65, 0x61, 0x72], []) ∧
  decode [0x04, 0x06, 0x70, 0x72, 0x69, 0x6D, 0x65, 0x72]
    = .ok (.cfggpr [0x70, 0x72, 0x69, 0x6D, 0x65, 0x72], []) ∧
  decode [0x05] = .ok (.build, []) ∧
  decode [0x06, 0x04, 0x12, 0x34, 0x56, 0x78] = .ok (.frame 4 0x12 0x34 0x56 0x78, []) ∧
  decodeOut .switch [0x62, 0x61, 0x74, 0x74, 0x65, 0x72, 0x79, 0x2C, 0x31, 0x0A]
    = some (.swcmd [0x62, 0x61, 0x74, 0x74, 0x65, 0x72, 0x79] true) ∧
  decodeOut .rotary [0x6D, 0x61, 0x67, 0x6E, 0x65, 0x74, 0x6F, 0x2C, 0x34, 0x0A]
    = some (.rotcmd [0x6D, 0x61, 0x67, 0x6E, 0x65, 0x74, 0x6F] 4) ∧
  decodeOut .starter [0x73, 0x74, 0x61, 0x72, 0x74, 0x65, 0x72, 0x2C, 0x30, 0x0A]
    = some (.startcmd [0x73, 0x74, 0x61, 0x72, 0x74, 0x65, 0x72] false)

/-- 30 R70 to R75, R83: every well-formed operation, with every operand, is read back from its record, whatever follows it in the stream. -/
def Obligations.RecordRoundTrip : Prop :=
  ∀ (i : Instr) (rest : List Byte), wellFormed i = true → i.isOutput = false →
    decode (encode i ++ rest) = .ok (i, rest)

/-- 30 R77, R79, 44 R181 to R183: every well-formed output message is read back from its datagram, read as a message of its kind. -/
def Obligations.DatagramRoundTrip : Prop :=
  ∀ (i : Instr) (k : OutKind), wellFormed i = true → outKind i = some k → decodeOut k (encode i) = some i

/-- 30 R83: a record has one reading: what `decode` accepts is the record of a well-formed input operation, followed by the rest. -/
def Obligations.DecodedRecordIsCanonical : Prop :=
  ∀ (bs rest : List Byte) (i : Instr), decode bs = .ok (i, rest) →
    bs = encode i ++ rest ∧ wellFormed i = true ∧ i.isOutput = false

/-- 30 R76, 60 R221 (a): reserved headers, reserved counts and truncated records are not accepted, in every state; with nothing presented the block has no step (60 R220). -/
def Obligations.ReservedRecordsHaveNoStep : Prop :=
  (∀ (s : State) (h : Byte) (rest : List Byte), s.input = h :: rest →
    headerReserved h ≠ 0#5 ∨ h = 0x07#8 → step s = .refused .reservedHeader) ∧
  (∀ (s : State) (n b0 b1 b2 b3 : Byte) (rest : List Byte),
    s.input = 0x06#8 :: n :: b0 :: b1 :: b2 :: b3 :: rest → 4 < n.toNat → step s = .refused .reservedCount) ∧
  (∀ (s : State) (i : Instr) (k : Nat), wellFormed i = true → i.isOutput = false →
    0 < k → k < (encode i).length → s.input = (encode i).take k → step s = .refused .truncated) ∧
  (∀ s : State, s.input = [] → step s = .refused .noRecord)

/-- 30 R77: the bytes and the length of a datagram. -/
def Obligations.DatagramBytes : Prop :=
  ∀ (name : CmdName) (a : Action),
    encodeCommand name a = name ++ [0x2C#8] ++ [0x30#8 + BitVec.ofNat 8 a.val] ++ [0x0A#8] ∧
    (encodeCommand name a).length = name.length + 3

/-- 30 R77, R79: a datagram determines its name and action, so the encoder loses nothing. -/
def Obligations.DatagramDeterminesCommand : Prop :=
  ∀ c d : Command, datagram c = datagram d → c = d

/-- 20 R51: where each frame byte stands in the snapshot. -/
def Obligations.FramePacking : Prop :=
  ∀ b0 b1 b2 : Byte,
    packSnapshot b0 b1 b2 = (b0.setWidth 24 <<< 16) ||| (b1.setWidth 24 <<< 8) ||| b2.setWidth 24 ∧
    (packSnapshot b0 b1 b2).extractLsb' 16 8 = b0 ∧
    (packSnapshot b0 b1 b2).extractLsb' 8 8 = b1 ∧
    (packSnapshot b0 b1 b2).extractLsb' 0 8 = b2

/-- 00 R7 (a), 30 R81: where names are unique, a `TAB_NAME` of the notation stands for its own index, and for no other. -/
def Obligations.TableNamesResolve : Prop :=
  ∀ (tb : Tables) (i : SwIdx) (name : CmdName), tb.NamesUnique →
    (resolveName tb name = some i ↔ name = tb.tabName[i])

/-- 10 R29, 60 R201: the numbers of the phases and of the fault codes. -/
def Obligations.PhaseAndFaultNumbers : Prop :=
  (phaseBits .config = 0 ∧ phaseBits .ready = 1 ∧ phaseBits .run = 2 ∧ phaseBits .fatal = 3) ∧
  (faultBits .noFault = 0 ∧ faultBits .cfgTooFew = 1 ∧ faultBits .cfgBadName = 2 ∧ faultBits .cfgMissing = 3 ∧
   faultBits .unregisteredBit = 4 ∧ faultBits .rotaryKey = 5 ∧ faultBits .transport = 6) ∧
  ∀ c : FaultCode, faultBits c ≠ 7

/-! ### Step, reset -/

/-- 00 R11, 20 R55, 30 R70: when the bytes presented start with a record of operation `i`, the step takes that record off the stream and is `exec i`. -/
def Obligations.StepRunsDecodedOperation : Prop :=
  ∀ (s : State) (i : Instr) (rest : List Byte), decode s.input = .ok (i, rest) →
    step s = exec i { s with input := rest }

/-- 10 R35: the value of every piece of state after reset. -/
def Obligations.ResetValues : Prop :=
  State.reset.phase = .config ∧ State.reset.faultCode = .noFault ∧
  State.reset.cur = 0x000000 ∧ State.reset.prev = 0x000000 ∧
  (∀ i : SwIdx, State.reset.swValid[i] = false ∧ State.reset.swCmd[i] = [] ∧ State.reset.swLast[i] = false) ∧
  State.reset.rotVal = 0x000000 ∧
  State.reset.rotCmdValid = false ∧ State.reset.startCmdValid = false ∧
  State.reset.gearRetargetValid = false ∧ State.reset.gearPrimerValid = false ∧
  State.reset.rotCmd = [] ∧ State.reset.startCmd = [] ∧
  State.reset.gearRetarget = [] ∧ State.reset.gearPrimer = [] ∧
  State.reset.out = []

/-- 60 R212, 70 R230, R233: in phase FATAL no operation has a step; reset leaves FATAL, in every state, and loses all state of the block (what stands is the model's own side of the run, log 13). -/
def Obligations.OnlyResetLeavesFatal : Prop :=
  (∀ (i : Instr) (s : State), s.phase = .fatal → ∃ r, exec i s = .refused r) ∧
  (∀ s : State, s.phase = .fatal → ∃ r, step s = .refused r) ∧
  (∀ s : State, resetBlock s = { State.reset with
    tables := s.tables, input := s.input, replies := s.replies, choices := s.choices, tick := s.tick })

/-! ### The invariant -/

/-- The machine invariant holds at reset (10 R25, R30, R36; the reference tables are log 1's). -/
def Obligations.ResetMeetsInvariant : Prop := Inv State.reset

/-- Every step keeps the machine invariant, from every state that meets it (10 R25, R30, R36; 40 R106; 43 R168). -/
def Obligations.StepKeepsInvariant : Prop :=
  ∀ s t : State, Inv s → step s = .next t → Inv t

/-! ### Acceptance, whole-machine rules -/

/-- 10 R29, 40 R100, 41 R120, 60 R221 (b): an operation outside the phases that accept it has no step. -/
def Obligations.WrongPhaseHasNoStep : Prop :=
  (∀ (s : State), s.phase ≠ .config →
    (∀ idx name, exec (.cfgsw idx name) s = .refused (.notAccepted "CFGSW" s.phase)) ∧
    (∀ name, exec (.cfgrot name) s = .refused (.notAccepted "CFGROT" s.phase)) ∧
    (∀ name, exec (.cfgstart name) s = .refused (.notAccepted "CFGSTART" s.phase)) ∧
    (∀ name, exec (.cfggrt name) s = .refused (.notAccepted "CFGGRT" s.phase)) ∧
    (∀ name, exec (.cfggpr name) s = .refused (.notAccepted "CFGGPR" s.phase)) ∧
    exec .build s = .refused (.notAccepted "BUILD" s.phase)) ∧
  (∀ (s : State) (n b0 b1 b2 b3 : Byte), s.phase = .config ∨ s.phase = .fatal → n.toNat ≤ 4 →
    exec (.frame n b0 b1 b2 b3) s = .refused (.notAccepted "FRAME" s.phase))

/-- 40 R108: once constructed, no operation writes a configuration register, and no operation leads back to phase CONFIG. -/
def Obligations.ConfigurationFrozenAfterBuild : Prop :=
  ∀ (i : Instr) (s t : State), s.phase ≠ .config → exec i s = .next t →
    SameConfig s t ∧ t.phase ≠ .config

/-- 10 R31, 44 R187: every operation extends `out`, and only by commands whose name and action the configuration and the tables give. -/
def Obligations.OnlyEmittableCommandsAreSent : Prop :=
  ∀ (i : Instr) (s t : State), exec i s = .next t →
    ∃ l : List Command, t.out = s.out ++ l ∧ ∀ c ∈ l, Emittable s c

/-- 60 R213: what is guaranteed after a fatal error: the phase, a code, `out` only extended, the configuration registers unchanged. -/
def Obligations.FatalErrorGuarantees : Prop :=
  ∀ (i : Instr) (s t : State), exec i s = .next t → t.phase = .fatal →
    t.faultCode ≠ .noFault ∧ SameConfig s t ∧ ∃ l : List Command, t.out = s.out ++ l

/-- 60 R201 to R207: which operation raises which code, and under what condition. -/
def Obligations.FaultCauses : Prop :=
  ∀ (i : Instr) (s t : State), exec i s = .next t → t.phase = .fatal →
    match t.faultCode with
    | .noFault => False
    | .cfgTooFew => i = .build ∧ boundCount s < 13
    | .cfgBadName => ∃ idx name, i = .cfgsw idx name ∧ 14 < idx.toNat
    | .cfgMissing => i = .build ∧ (s.rotCmdValid = false ∨ s.startCmdValid = false)
    | .unregisteredBit => ∃ n b0 b1 b2 b3, i = .frame n b0 b1 b2 b3 ∧ s.phase = .run ∧
        unregistered s (changedWord s.tables (packSnapshot b0 b1 b2) s.prev) ≠ 0#24
    | .rotaryKey => ∃ n b0 b1 b2 b3, i = .frame n b0 b1 b2 b3 ∧ s.phase = .run ∧
        rotKey s.tables (packSnapshot b0 b1 b2) ≠ 0#24 ∧
        rotKey s.tables (packSnapshot b0 b1 b2) ≠ s.rotVal ∧
        ∀ j : RotIdx, rotKey s.tables (packSnapshot b0 b1 b2) ≠ s.tables.rot[j]
    | .transport => s.tables.sendErrPolicy = .fatal ∧
        ((∃ n b0 b1 b2 b3, i = .frame n b0 b1 b2 b3 ∧ 2 < n.toNat) ∨ i.isOutput = true)

/-- What a FRAME leaves unchanged in every case: the configuration, the tables, the rest of the stream, the fault code while no fatal error is taken, and the last-sent bits of unconfigured entries (10 R24, 41 R123 c, 42 R142). -/
def Obligations.FrameLeavesTheRest : Prop :=
  ∀ (s t : State) (n b0 b1 b2 b3 : Byte), exec (.frame n b0 b1 b2 b3) s = .next t →
    SameConfig s t ∧ t.tables = s.tables ∧ t.input = s.input ∧
    (t.phase ≠ .fatal → t.faultCode = s.faultCode ∧
      ∀ i : SwIdx, s.swValid[i] = false → t.swLast[i] = s.swLast[i])

/-- 10 R28, 44 R186: the gear names are read by nothing: runs of any length from two states that differ only in them differ in nothing else. -/
def Obligations.GearNamesAreNeverRead : Prop :=
  ∀ (k : Nat) (s s' : State), forgetGear s = forgetGear s' →
    forgetGearOutcome (Host.Core.run Sys2Proof.core k s) = forgetGearOutcome (Host.Core.run Sys2Proof.core k s')

/-! ### Configuration operations (40) -/

/-- 40 R101: CFGSW binds the entry an index 0..14 names, and writes nothing else; an index of 15 or more is `Fatal(CFG_BAD_NAME)`. -/
def Obligations.CfgswBinds : Prop :=
  (∀ (s : State) (i : SwIdx) (idx : Byte) (name : CmdName), s.phase = .config → idx.toNat = i.val →
    exec (.cfgsw idx name) s =
      .next { s with swCmd := s.swCmd.set i name, swValid := s.swValid.set i true }) ∧
  (∀ (s : State) (idx : Byte) (name : CmdName), s.phase = .config → 14 < idx.toNat →
    ∃ t, exec (.cfgsw idx name) s = .next t ∧ t.phase = .fatal ∧ t.faultCode = .cfgBadName ∧
      SameConfig s t ∧ t.out = s.out)

/-- 40 R102: CFGROT stores the rotary command name and its valid bit, and writes nothing else. -/
def Obligations.CfgrotSetsRotaryName : Prop :=
  ∀ (s : State) (name : CmdName), s.phase = .config →
    exec (.cfgrot name) s = .next { s with rotCmd := name, rotCmdValid := true }

/-- 40 R103: CFGSTART stores the starter command name and its valid bit, and writes nothing else. -/
def Obligations.CfgstartSetsStarterName : Prop :=
  ∀ (s : State) (name : CmdName), s.phase = .config →
    exec (.cfgstart name) s = .next { s with startCmd := name, startCmdValid := true }

/-- 40 R104: CFGGRT stores `gear_retarget` and its valid bit, and writes nothing else. -/
def Obligations.CfggrtStoresName : Prop :=
  ∀ (s : State) (name : CmdName), s.phase = .config →
    exec (.cfggrt name) s = .next { s with gearRetarget := name, gearRetargetValid := true }

/-- 40 R105: CFGGPR stores `gear_primer` and its valid bit, and writes nothing else. -/
def Obligations.CfggprStoresName : Prop :=
  ∀ (s : State) (name : CmdName), s.phase = .config →
    exec (.cfggpr name) s = .next { s with gearPrimer := name, gearPrimerValid := true }

/-- 40 R106: BUILD with at least 13 entries and both names constructs the mapper; all else stands. -/
def Obligations.BuildConstructs : Prop :=
  ∀ s : State, s.phase = .config → 13 ≤ boundCount s → s.rotCmdValid = true → s.startCmdValid = true →
    exec .build s =
      .next { s with swLast := Vector.replicate 15 false, rotVal := 0x000000#24, phase := .ready }

/-- 60 R202, R204, R210: BUILD's two checks, the count first. -/
def Obligations.BuildChecks : Prop :=
  (∀ s : State, s.phase = .config → boundCount s < 13 →
    ∃ t, exec .build s = .next t ∧ t.phase = .fatal ∧ t.faultCode = .cfgTooFew ∧ SameConfig s t ∧ t.out = s.out) ∧
  (∀ s : State, s.phase = .config → 13 ≤ boundCount s → (s.rotCmdValid = false ∨ s.startCmdValid = false) →
    ∃ t, exec .build s = .next t ∧ t.phase = .fatal ∧ t.faultCode = .cfgMissing ∧ SameConfig s t ∧ t.out = s.out)

/-! ### FRAME: short frames, padding, initialisation (20, 41) -/

/-- 41 R121: a short frame changes nothing, in READY and in RUN, whatever its bytes. -/
def Obligations.ShortFrameIsNoOp : Prop :=
  ∀ (s : State) (n b0 b1 b2 b3 : Byte), s.phase = .ready ∨ s.phase = .run → n.toNat ≤ 2 →
    exec (.frame n b0 b1 b2 b3) s = .next s

/-- 20 R52, R54: the fourth byte is ignored whatever its value, and a frame of three bytes and one of four with the same first three have the same effect. -/
def Obligations.FourthByteIsIgnored : Prop :=
  ∀ (s : State) (n m b0 b1 b2 b3 c3 : Byte), ValidCount n → ValidCount m →
    exec (.frame n b0 b1 b2 b3) s = exec (.frame m b0 b1 b2 c3) s

/-- 41 R122 to R126: the first valid frame, every send ok: one command per configured entry, in some order, with its state in the snapshot; then at most one rotary command, of a position the snapshot asserts, and no starter command; the snapshot remembered; phase RUN. -/
def Obligations.FirstFrameInitialises : Prop :=
  ∀ (s : State) (n b0 b1 b2 b3 : Byte), s.phase = .ready → ValidCount n → SendsOk s (boundCount s + 1) →
    ∃ (t : State) (sw rc : List Command), exec (.frame n b0 b1 b2 b3) s = .next t ∧
      sw.Perm ((configured s).map (stateCommand s (packSnapshot b0 b1 b2))) ∧
      t.out = s.out ++ sw ++ rc ∧
      (∀ i : SwIdx, t.swLast[i] =
        if s.swValid[i] = true then switchState s.tables (packSnapshot b0 b1 b2) i else s.swLast[i]) ∧
      ((∀ j : RotIdx, packSnapshot b0 b1 b2 &&& s.tables.rot[j] = 0#24) → rc = [] ∧ t.rotVal = s.rotVal) ∧
      ((∃ j : RotIdx, packSnapshot b0 b1 b2 &&& s.tables.rot[j] ≠ 0#24) →
        ∃ j : RotIdx, packSnapshot b0 b1 b2 &&& s.tables.rot[j] ≠ 0#24 ∧
          rc = [⟨s.rotCmd, s.tables.rotCode[j]⟩] ∧ t.rotVal = s.tables.rot[j]) ∧
      t.cur = packSnapshot b0 b1 b2 ∧ t.prev = packSnapshot b0 b1 b2 ∧ t.phase = .run ∧
      t.faultCode = s.faultCode ∧ SameConfig s t ∧ t.tables = s.tables ∧ t.input = s.input ∧
      t.replies = s.replies.drop (sw.length + rc.length)

/-- 41 R122 to R124, 44 R184, 95 XV3: a send error while initialising, policy fatal, at any switch command or at the rotary command: the commands sent before it stand, the run ends in FATAL, never RUN. -/
def Obligations.SendErrorStopsInitialisation : Prop :=
  ∀ (s : State) (n b0 b1 b2 b3 : Byte) (k : Nat) (rs : List SendReply), s.phase = .ready → ValidCount n →
    s.tables.sendErrPolicy = .fatal →
    (k < boundCount s ∨ (k = boundCount s ∧ ∃ j : RotIdx, packSnapshot b0 b1 b2 &&& s.tables.rot[j] ≠ 0#24)) →
    s.replies = List.replicate k .ok ++ .err :: rs →
    ∃ (t : State) (sw : List Command), exec (.frame n b0 b1 b2 b3) s = .next t ∧ t.phase = .fatal ∧ t.faultCode = .transport ∧
      SameConfig s t ∧ t.out = s.out ++ sw.take k ∧
      sw.Perm ((configured s).map (stateCommand s (packSnapshot b0 b1 b2)))

/-! ### FRAME: change processing (41, 42, 43) -/

/-- 41 R127, R128, 42 R142, 43 R170: a valid frame in RUN with every changed bit registered, a legal key and every send ok: one command per changed configured entry with its last-sent bit flipped, in some order, then the move's commands. -/
def Obligations.FrameProcessesChanges : Prop :=
  ∀ (s : State) (n b0 b1 b2 b3 : Byte) (changed key : Snapshot),
    s.tables.MasksValid → s.phase = .run → ValidCount n →
    changed = changedWord s.tables (packSnapshot b0 b1 b2) s.prev →
    key = rotKey s.tables (packSnapshot b0 b1 b2) →
    unregistered s changed = 0#24 →
    (key = 0#24 ∨ key = s.rotVal ∨ ∃ j : RotIdx, key = s.tables.rot[j]) →
    SendsOk s ((hits s changed).length + 2) →
    ∃ (t : State) (sw rc : List Command), exec (.frame n b0 b1 b2 b3) s = .next t ∧
      sw.Perm ((hits s changed).map (flipCommand s)) ∧
      t.out = s.out ++ sw ++ rc ∧
      (∀ i : SwIdx, t.swLast[i] = if i ∈ hits s changed then !s.swLast[i] else s.swLast[i]) ∧
      ((key = 0#24 ∨ key = s.rotVal) → rc = [] ∧ t.rotVal = s.rotVal) ∧
      (∀ j : RotIdx, key = s.tables.rot[j] → key ≠ s.rotVal → rc = moveCommands s j ∧ t.rotVal = key) ∧
      t.cur = packSnapshot b0 b1 b2 ∧ t.prev = packSnapshot b0 b1 b2 ∧ t.phase = .run ∧
      t.faultCode = s.faultCode ∧ SameConfig s t ∧ t.tables = s.tables ∧ t.input = s.input ∧
      t.replies = s.replies.drop (sw.length + rc.length)

/-- 42 R141, 43 R161: no mask-relevant change and a silent key: only `cur` and `prev` are written. -/
def Obligations.QuietFrameOnlyRemembers : Prop :=
  ∀ (s : State) (n b0 b1 b2 b3 : Byte) (c : Snapshot), s.phase = .run → ValidCount n →
    c = packSnapshot b0 b1 b2 → changedWord s.tables c s.prev = 0#24 →
    rotKey s.tables c = 0#24 ∨ rotKey s.tables c = s.rotVal →
    exec (.frame n b0 b1 b2 b3) s = .next { s with cur := c, prev := c }

/-- 42 R146: a single configured changed bit and a silent key: exactly one command, toggling that switch's last value. -/
def Obligations.SingleBitChangeSendsOneCommand : Prop :=
  ∀ (s : State) (n b0 b1 b2 b3 : Byte) (c : Snapshot) (i : SwIdx),
    s.tables.MasksValid → s.phase = .run → ValidCount n →
    c = packSnapshot b0 b1 b2 → s.swValid[i] = true → c ^^^ s.prev = s.tables.bit[i] →
    rotKey s.tables c = 0#24 ∨ rotKey s.tables c = s.rotVal →
    SendsOk s 1 →
    ∃ t, exec (.frame n b0 b1 b2 b3) s = .next t ∧
      t.out = s.out ++ [⟨s.swCmd[i], bitAction (!s.swLast[i])⟩] ∧
      t.swLast = s.swLast.set i (!s.swLast[i]) ∧
      t.cur = c ∧ t.prev = c ∧ t.rotVal = s.rotVal ∧ t.phase = .run ∧ t.faultCode = s.faultCode ∧
      SameConfig s t ∧ t.tables = s.tables ∧ t.input = s.input ∧ t.replies = s.replies.drop 1

/-- 43 R163 to R166: a move of the selector, nothing else changed: deactivation if it leaves "start", the new position's command, activation if it enters "start", in that order. -/
def Obligations.RotaryMoveSendsInOrder : Prop :=
  ∀ (s : State) (n b0 b1 b2 b3 : Byte) (c : Snapshot) (j : RotIdx),
    s.tables.MasksValid → s.phase = .run → ValidCount n →
    c = packSnapshot b0 b1 b2 → changedWord s.tables c s.prev = 0#24 →
    rotKey s.tables c = s.tables.rot[j] → s.tables.rot[j] ≠ s.rotVal → SendsOk s 2 →
    exec (.frame n b0 b1 b2 b3) s =
      .next { s with
        cur := c, prev := c, rotVal := s.tables.rot[j],
        out := s.out ++ ((if s.rotVal = rotStart s.tables then [⟨s.startCmd, 0⟩] else []) ++
          [⟨s.rotCmd, s.tables.rotCode[j]⟩] ++
          (if s.tables.rot[j] = rotStart s.tables then [⟨s.startCmd, 1⟩] else [])),
        replies := s.replies.drop (moveCommands s j).length }

/-- 42 R144, 60 R205: a changed bit of an unconfigured entry is fatal; what was sent before it is the flips of some hits, each at most once, in some order. -/
def Obligations.UnregisteredBitIsFatal : Prop :=
  ∀ (s : State) (n b0 b1 b2 b3 : Byte) (changed : Snapshot), s.phase = .run → ValidCount n →
    changed = changedWord s.tables (packSnapshot b0 b1 b2) s.prev →
    unregistered s changed ≠ 0#24 → SendsOk s (hits s changed).length →
    ∃ (t : State) (part : List SwIdx), exec (.frame n b0 b1 b2 b3) s = .next t ∧ t.phase = .fatal ∧
      t.faultCode = .unregisteredBit ∧ SameConfig s t ∧
      part.Nodup ∧ (∀ i ∈ part, i ∈ hits s changed) ∧
      t.out = s.out ++ part.map (flipCommand s)

/-- 43 R162, 60 R206, R210: a key that is no single position is fatal, after the scan's commands; the step-3 deactivation may or may not have gone out. -/
def Obligations.SeveralRotaryBitsAreFatal : Prop :=
  ∀ (s : State) (n b0 b1 b2 b3 : Byte) (changed key : Snapshot),
    s.tables.MasksValid → s.phase = .run → ValidCount n →
    changed = changedWord s.tables (packSnapshot b0 b1 b2) s.prev →
    key = rotKey s.tables (packSnapshot b0 b1 b2) →
    unregistered s changed = 0#24 → key ≠ 0#24 → key ≠ s.rotVal → (∀ j : RotIdx, key ≠ s.tables.rot[j]) →
    SendsOk s ((hits s changed).length + 1) →
    ∃ (t : State) (sw lv : List Command), exec (.frame n b0 b1 b2 b3) s = .next t ∧ t.phase = .fatal ∧ t.faultCode = .rotaryKey ∧
      SameConfig s t ∧ sw.Perm ((hits s changed).map (flipCommand s)) ∧
      (lv = [] ∨ (s.rotVal = rotStart s.tables ∧ lv = [⟨s.startCmd, 0⟩])) ∧
      t.out = s.out ++ sw ++ lv

/-- 41 R127, 42 R142, 43 R167, 44 R184, 95 XV1, XV2: a send error in change processing, policy fatal, nothing unregistered: the commands sent before it stand, those of the scan first, the run ends in FATAL. -/
def Obligations.SendErrorStopsProcessing : Prop :=
  ∀ (s : State) (n b0 b1 b2 b3 : Byte) (changed key : Snapshot) (k : Nat) (rs : List SendReply),
    s.tables.MasksValid → s.phase = .run → ValidCount n → s.tables.sendErrPolicy = .fatal →
    changed = changedWord s.tables (packSnapshot b0 b1 b2) s.prev →
    key = rotKey s.tables (packSnapshot b0 b1 b2) →
    unregistered s changed = 0#24 →
    (k < (hits s changed).length ∨ ∃ j : RotIdx, key = s.tables.rot[j] ∧ key ≠ s.rotVal ∧
      k < (hits s changed).length + (moveCommands s j).length) →
    s.replies = List.replicate k .ok ++ .err :: rs →
    ∃ (t : State) (sw : List Command), exec (.frame n b0 b1 b2 b3) s = .next t ∧ t.phase = .fatal ∧ t.faultCode = .transport ∧
      SameConfig s t ∧ sw.Perm ((hits s changed).map (flipCommand s)) ∧
      (k < (hits s changed).length → t.out = s.out ++ sw.take k) ∧
      (∀ j : RotIdx, key = s.tables.rot[j] → key ≠ s.rotVal → t.out = s.out ++ (sw ++ moveCommands s j).take k)

/-- 60 R213: whatever the sends are answered, when a FRAME ends in a fatal error under the policy fatal, `out` has grown by a front part of a sequence that the operation's rules allow. -/
def Obligations.FatalOutIsAllowedPrefix : Prop :=
  ∀ (s t : State) (n b0 b1 b2 b3 : Byte), s.tables.sendErrPolicy = .fatal →
    exec (.frame n b0 b1 b2 b3) s = .next t → t.phase = .fatal →
    (s.phase = .ready → ∃ l, InitialEmission s (packSnapshot b0 b1 b2) l ∧ ∃ k, t.out = s.out ++ l.take k) ∧
    (s.phase = .run → s.tables.MasksValid →
      ∃ l, ChangeEmission s (packSnapshot b0 b1 b2) l ∧ ∃ k, t.out = s.out ++ l.take k)

/-- 42 R143: the early exit of the scan is not observable: with it and without it the scan reaches the same point. -/
def Obligations.EarlyExitIsUnobservable : Prop :=
  ∀ (s : State) (changed : Snapshot) (order : List SwIdx), s.tables.MasksValid → order.Nodup →
    scanLoop changed order s = scanAll changed order s

/-- 10 R25, 43 R170: once a position has been seen, `rot_val` stays non-zero until a fatal error or reset: every operation of phase RUN that ends without a fatal error stays in RUN and keeps it non-zero. -/
def Obligations.PositionIsNeverForgotten : Prop :=
  ∀ (i : Instr) (s t : State), s.phase = .run → s.rotVal ≠ 0#24 → exec i s = .next t → t.phase ≠ .fatal →
    t.phase = .run ∧ t.rotVal ≠ 0#24

/-- 43 R161, R172: the rotary step does nothing exactly when the key is zero or the active position. -/
def Obligations.RotaryStepSilentExactly : Prop :=
  ∀ (c : Snapshot) (s : State),
    rotaryStep c s = .on s ↔ (rotKey s.tables c = 0#24 ∨ rotKey s.tables c = s.rotVal)

/-- 43 R172, 41 R129: a frame that was processed without a fatal error, presented again, changes nothing. -/
def Obligations.RepeatedFrameIsSilent : Prop :=
  ∀ (s t : State) (n b0 b1 b2 b3 : Byte), s.phase = .run → ValidCount n →
    exec (.frame n b0 b1 b2 b3) s = .next t → t.phase = .run →
    exec (.frame n b0 b1 b2 b3) t = .next t

/-- 20 R65: snapshot bits in neither mask have no effect: frames that agree on the masks, from states that agree on the masks of `prev`, lead to states that differ in `cur` and `prev` only, and there only outside the masks. -/
def Obligations.UnassignedBitsHaveNoEffect : Prop :=
  ∀ (s : State) (p q : Snapshot) (n b0 b1 b2 b3 a0 a1 a2 a3 : Byte),
    s.phase = .ready ∨ s.phase = .run → ValidCount n →
    SameMasked s.tables s.prev p →
    SameMasked s.tables (packSnapshot b0 b1 b2) (packSnapshot a0 a1 a2) →
    ∃ t u, exec (.frame n b0 b1 b2 b3) s = .next t ∧
      exec (.frame n a0 a1 a2 a3) { s with prev := p, cur := q } = .next u ∧
      { u with prev := t.prev, cur := t.cur } = t ∧
      SameMasked s.tables t.prev u.prev ∧ SameMasked s.tables t.cur u.cur

/-- 44 R184: under the policy `continue` the mapper's state does not depend on the answers to the sends; only `out` does. -/
def Obligations.ContinuePolicyKeepsMapperState : Prop :=
  ∀ (s : State) (rs qs : List SendReply) (n b0 b1 b2 b3 : Byte),
    s.tables.sendErrPolicy = .continues → s.phase = .ready ∨ s.phase = .run → ValidCount n →
    rs.length = qs.length →
    ∃ t u, exec (.frame n b0 b1 b2 b3) { s with replies := rs } = .next t ∧
      exec (.frame n b0 b1 b2 b3) { s with replies := qs } = .next u ∧
      t = { u with out := t.out, replies := t.replies }

/-- 00 R10 (log 3): the numbers that stand for open choices leave none out: every order of a list, every member of a non-empty list and every part of the hits in every order has a number. -/
def Obligations.ChoiceNumbersCoverAll : Prop :=
  (∀ (l order : List SwIdx), order.Perm l → ∃ k, arrange k l = order) ∧
  (∀ (j0 : RotIdx) (js : List RotIdx) (j : RotIdx), j ∈ j0 :: js → ∃ k, chooseFrom k j0 js = j) ∧
  (∀ (hit part : List SwIdx), hit.Nodup → part.Nodup → (∀ i ∈ part, i ∈ hit) →
    ∃ k m, faultingPart k m hit = part)

/-- 00 R10, 41 R123, R124, 42 R142, R144, 43 R162, 60 R213 (logs 3, 6): FRAME leaves out nothing that the rules leave open: for every order of the switch pass with every asserted position, every order of the scan, every faulting part, and both outcomes of a bad key, there is a script of choices from which FRAME, its sends ok, answers a state whose `out` shows it. -/
def Obligations.EveryOpenChoiceIsAdmitted : Prop :=
  (∀ (s : State) (n b0 b1 b2 b3 : Byte) (order : List SwIdx), s.phase = .ready → ValidCount n →
    SendsOk s (boundCount s + 1) → order.Perm (configured s) →
    ((∀ j : RotIdx, packSnapshot b0 b1 b2 &&& s.tables.rot[j] = 0#24) →
      ∃ ks t, exec (.frame n b0 b1 b2 b3) (s.withChoices ks) = .next t ∧
        t.out = s.out ++ order.map (stateCommand s (packSnapshot b0 b1 b2))) ∧
    (∀ j : RotIdx, packSnapshot b0 b1 b2 &&& s.tables.rot[j] ≠ 0#24 →
      ∃ ks t, exec (.frame n b0 b1 b2 b3) (s.withChoices ks) = .next t ∧
        t.out = s.out ++ order.map (stateCommand s (packSnapshot b0 b1 b2)) ++ [⟨s.rotCmd, s.tables.rotCode[j]⟩] ∧
        t.rotVal = s.tables.rot[j])) ∧
  (∀ (s : State) (n b0 b1 b2 b3 : Byte) (changed key : Snapshot), s.phase = .run → ValidCount n →
    changed = changedWord s.tables (packSnapshot b0 b1 b2) s.prev →
    key = rotKey s.tables (packSnapshot b0 b1 b2) →
    SendsOk s ((hits s changed).length + 2) →
    (s.tables.MasksValid → unregistered s changed = 0#24 →
      ∀ order : List SwIdx, order.Perm (hits s changed) →
        (key = 0#24 ∨ key = s.rotVal → ∃ ks t, exec (.frame n b0 b1 b2 b3) (s.withChoices ks) = .next t ∧
          t.phase = .run ∧ t.out = s.out ++ order.map (flipCommand s)) ∧
        (∀ j : RotIdx, key = s.tables.rot[j] → key ≠ s.rotVal →
          ∃ ks t, exec (.frame n b0 b1 b2 b3) (s.withChoices ks) = .next t ∧
            t.phase = .run ∧ t.out = s.out ++ order.map (flipCommand s) ++ moveCommands s j) ∧
        (key ≠ 0#24 → key ≠ s.rotVal → (∀ j : RotIdx, key ≠ s.tables.rot[j]) →
          (∃ ks t, exec (.frame n b0 b1 b2 b3) (s.withChoices ks) = .next t ∧
            t.faultCode = .rotaryKey ∧ t.out = s.out ++ order.map (flipCommand s)) ∧
          (s.rotVal = rotStart s.tables → ∃ ks t, exec (.frame n b0 b1 b2 b3) (s.withChoices ks) = .next t ∧
            t.faultCode = .rotaryKey ∧ t.out = s.out ++ order.map (flipCommand s) ++ [⟨s.startCmd, 0⟩]))) ∧
    (unregistered s changed ≠ 0#24 →
      ∀ part : List SwIdx, part.Nodup → (∀ i ∈ part, i ∈ hits s changed) →
        ∃ ks t, exec (.frame n b0 b1 b2 b3) (s.withChoices ks) = .next t ∧
          t.faultCode = .unregisteredBit ∧ t.out = s.out ++ part.map (flipCommand s)))

/-! ### Output kinds (44) -/

/-- 44 R180, R181 (log 9): the emission of a SWCMD, its send ok, appends it to `out` and nothing else. -/
def Obligations.SwcmdIsSent : Prop :=
  ∀ (s : State) (i : SwIdx) (v : Bool) (rs : List SendReply), s.phase = .ready ∨ s.phase = .run →
    s.swValid[i] = true → s.replies = .ok :: rs →
    exec (.swcmd s.swCmd[i] v) s =
      .next { s with out := s.out ++ [⟨s.swCmd[i], if v then 1 else 0⟩], replies := rs }

/-- 44 R180, R182 (log 9): the emission of a ROTCMD, its send ok, appends it to `out` and nothing else. -/
def Obligations.RotcmdIsSent : Prop :=
  ∀ (s : State) (j : RotIdx) (rs : List SendReply), s.phase = .ready ∨ s.phase = .run →
    s.replies = .ok :: rs →
    exec (.rotcmd s.rotCmd s.tables.rotCode[j]) s =
      .next { s with out := s.out ++ [⟨s.rotCmd, s.tables.rotCode[j]⟩], replies := rs }

/-- 44 R180, R183 (log 9): the emission of a STARTCMD, its send ok, appends it to `out` and nothing else. -/
def Obligations.StartcmdIsSent : Prop :=
  ∀ (s : State) (v : Bool) (rs : List SendReply), s.phase = .run → s.replies = .ok :: rs →
    exec (.startcmd s.startCmd v) s =
      .next { s with out := s.out ++ [⟨s.startCmd, if v then 1 else 0⟩], replies := rs }

/-- 44 R184, 60 R207: a send error under the policy `fatal` is `Fatal(TRANSPORT)` and the command is not in `out`; under `continue` the operation goes on without it. -/
def Obligations.SendErrorFollowsPolicy : Prop :=
  (∀ (s : State) (name : CmdName) (a : Action) (rs : List SendReply), s.replies = .err :: rs →
    s.tables.sendErrPolicy = .fatal →
    ∃ t, emit name a s = .dead t ∧ t.phase = .fatal ∧ t.faultCode = .transport ∧ SameConfig s t ∧ t.out = s.out) ∧
  (∀ (s : State) (name : CmdName) (a : Action) (rs : List SendReply), s.replies = .err :: rs →
    s.tables.sendErrPolicy = .continues → emit name a s = .on { s with replies := rs })

/-- 44 R187 (log 9): the output kinds have no step for a name or an action the block cannot emit, nor in a phase in which it emits none of that kind: a STARTCMD before phase RUN (R183), any of them in CONFIG and in FATAL. -/
def Obligations.UnemittableOutputsHaveNoStep : Prop :=
  (∀ (s : State) (name : CmdName) (v : Bool), s.phase = .ready ∨ s.phase = .run →
    (∀ i : SwIdx, s.swValid[i] = true → s.swCmd[i] ≠ name) →
    exec (.swcmd name v) s = .refused (.neverEmitted "SWCMD")) ∧
  (∀ (s : State) (name : CmdName) (code : Action), s.phase = .ready ∨ s.phase = .run →
    (name ≠ s.rotCmd ∨ ∀ j : RotIdx, s.tables.rotCode[j] ≠ code) →
    exec (.rotcmd name code) s = .refused (.neverEmitted "ROTCMD")) ∧
  (∀ (s : State) (name : CmdName) (v : Bool), s.phase = .run → name ≠ s.startCmd →
    exec (.startcmd name v) s = .refused (.neverEmitted "STARTCMD")) ∧
  (∀ (s : State) (name : CmdName) (v : Bool), s.phase ≠ .run →
    exec (.startcmd name v) s = .refused (.notAccepted "STARTCMD" s.phase)) ∧
  (∀ (s : State) (name : CmdName) (v : Bool) (code : Action), s.phase = .config ∨ s.phase = .fatal →
    exec (.swcmd name v) s = .refused (.notAccepted "SWCMD" s.phase) ∧
    exec (.rotcmd name code) s = .refused (.notAccepted "ROTCMD" s.phase))
end

