-- ==== Sys2Proof/Laws/Bits.lean ====
section
/-! SUPPORT. Bit facts: when one-hot masks meet, and what a table's masks say about the change word. -/

namespace Sys2Proof.Machine

theorem getLsbD_orAll (l : List Snapshot) (k : Nat) :
    (orAll l).getLsbD k = l.any fun m => m.getLsbD k := by
  induction l with
  | nil => simp [orAll]
  | cons m l ih => simpa [orAll] using congrArg (m.getLsbD k || ·) ih

theorem meets_iff {m w : Snapshot} : meets m w = true ↔ ∃ k, k < 24 ∧ m.getLsbD k = true ∧ w.getLsbD k = true := by
  unfold meets
  rw [bne_iff_ne, Ne, BitVec.eq_of_getLsbD_eq_iff]
  simp

theorem getLsbD_oneHot (k : Fin 24) (i : Nat) : (1#24 <<< k.val).getLsbD i = decide (i = k.val) := by
  have := k.isLt
  simp [BitVec.getLsbD_one]
  grind

/-- A one-hot mask meets a word exactly when the word has its bit. -/
theorem meets_oneHot {m w : Snapshot} {k : Fin 24} (h : m = 1#24 <<< k.val) : meets m w = w.getLsbD k.val := by
  subst h
  rw [Bool.eq_iff_iff, meets_iff]
  simp only [getLsbD_oneHot, decide_eq_true_eq]
  constructor
  · rintro ⟨_, _, rfl, h⟩; exact h
  · intro h; exact ⟨k.val, k.isLt, rfl, h⟩

/-- Two one-hot masks meet only if they are equal. -/
theorem oneHot_meets_eq {m n : Snapshot} (hm : Tables.OneHot m) (hn : Tables.OneHot n) (h : meets m n = true) : m = n := by
  obtain ⟨k, rfl⟩ := hm
  obtain ⟨l, rfl⟩ := hn
  rw [meets_oneHot rfl, getLsbD_oneHot, decide_eq_true_eq] at h
  rw [h]

theorem oneHot_ne_zero {m : Snapshot} (hm : Tables.OneHot m) : m ≠ 0#24 := by
  obtain ⟨k, rfl⟩ := hm
  intro h
  have := congrArg (fun v => v.getLsbD k.val) h
  simp at this

/-- In a valid instance an entry whose mask meets a single entry's mask is that entry (00 R7 a). -/
theorem bit_meets_bit {tb : Tables} (hv : tb.MasksValid) {i j : SwIdx} (h : meets tb.bit[i] tb.bit[j] = true) : i = j :=
  hv.2.1 i j (oneHot_meets_eq (hv.1 i) (hv.1 j) h)

/-- Every bit of an entry's mask lies in `SWG_MASK` (00 R6). -/
theorem swgMask_bit (tb : Tables) (i : SwIdx) {k : Nat} (h : tb.bit[i].getLsbD k = true) :
    (swgMask tb).getLsbD k = true := by
  simp only [swgMask, getLsbD_orAll, List.any_map, List.any_eq_true]
  exact ⟨i, List.mem_finRange i, h⟩

/-- Every bit of a position's mask lies in `ROT_MASK` (00 R6). -/
theorem rotMask_bit (tb : Tables) (j : RotIdx) {k : Nat} (h : tb.rot[j].getLsbD k = true) :
    (rotMask tb).getLsbD k = true := by
  simp only [rotMask, getLsbD_orAll, List.any_map, List.any_eq_true]
  exact ⟨j, List.mem_finRange j, h⟩

/-- In a valid instance an entry is in the change word exactly when its state differs (42 R140). -/
theorem meets_changed {tb : Tables} (hv : tb.MasksValid) (c p : Snapshot) (i : SwIdx) :
    meets tb.bit[i] (changedWord tb c p) = (switchState tb c i ^^ switchState tb p i) := by
  obtain ⟨k, hk⟩ := hv.1 i
  have hin : (swgMask tb).getLsbD k.val = true := swgMask_bit tb i (by rw [hk, getLsbD_oneHot]; simp)
  unfold switchState changedWord
  rw [meets_oneHot hk, meets_oneHot hk, meets_oneHot hk, BitVec.getLsbD_and, BitVec.getLsbD_xor, hin, Bool.and_true]

/-- `cfg_mask` holds the bits of the configured entries (42 R142). -/
theorem cfgMask_bit {s : State} {k : Nat} :
    (cfgMask s).getLsbD k = true ↔ ∃ i : SwIdx, s.swValid[i] = true ∧ s.tables.bit[i].getLsbD k = true := by
  simp only [cfgMask, getLsbD_orAll, List.any_map, List.any_eq_true, configured, List.mem_filter, List.mem_finRange,
    true_and, Function.comp]

end Sys2Proof.Machine
end

