-- ==== Sys2Proof/Laws/Congruence.lean ====
section
/-! SUPPORT. Runs side by side: a relation on states that the primitive operations respect is respected by `initialise` and `process`. -/

namespace Sys2Proof.Machine

/-- Two flows at the same kind of point, in states related by `R` where they go on and by `D` where a fatal error ended them. -/
def FlowRel (R D : State → State → Prop) : Flow → Flow → Prop
  | .on s, .on t => R s t
  | .dead s, .dead t => D s t
  | .on _, .dead _ => False
  | .dead _, .on _ => False

/-- A relation that the primitive operations respect: related states answer every read of `initialise` and `process` alike. -/
structure Congruence (R D : State → State → Prop) : Prop where
  tables : ∀ {s t}, R s t → t.tables = s.tables
  swValid : ∀ {s t}, R s t → t.swValid = s.swValid
  swCmd : ∀ {s t}, R s t → t.swCmd = s.swCmd
  swLast : ∀ {s t}, R s t → t.swLast = s.swLast
  rotVal : ∀ {s t}, R s t → t.rotVal = s.rotVal
  rotCmd : ∀ {s t}, R s t → t.rotCmd = s.rotCmd
  startCmd : ∀ {s t}, R s t → t.startCmd = s.startCmd
  nextChoice : ∀ {s t}, R s t → nextChoice t = nextChoice s
  afterChoice : ∀ {s t}, R s t → R (afterChoice s) (afterChoice t)
  writeLast : ∀ {s t} (i v), R s t → R (s.writeLast i v) (t.writeLast i v)
  writeRot : ∀ {s t} (m), R s t → R (s.writeRot m) (t.writeRot m)
  emit : ∀ {s t} (name a), R s t → FlowRel R D (emit name a s) (emit name a t)
  fatal : ∀ {s t} (code), R s t → D (raiseFatal code s) (raiseFatal code t)

variable {R D : State → State → Prop}

theorem FlowRel.andThen {f g : Flow} {k l : State → Flow} (h : FlowRel R D f g)
    (hk : ∀ s t, R s t → FlowRel R D (k s) (l t)) : FlowRel R D (andThen f k) (andThen g l) := by
  cases f <;> cases g <;> first | exact h.elim | exact hk _ _ h | exact h

theorem rel_forEach {α : Type} {body : α → State → Flow} (h : ∀ a s t, R s t → FlowRel R D (body a s) (body a t))
    (l : List α) {s t : State} (hr : R s t) : FlowRel R D (forEach body l s) (forEach body l t) := by
  induction l generalizing s t with
  | nil => exact hr
  | cons a l ih => exact (h a s t hr).andThen fun _ _ => ih

variable (C : Congruence R D) {s t : State} (h : R s t)

include C h

theorem Congruence.configured : configured t = configured s := by
  unfold Machine.configured; rw [C.swValid h]

theorem Congruence.flipAndEmit (i : SwIdx) : FlowRel R D (flipAndEmit i s) (flipAndEmit i t) := by
  unfold Machine.flipAndEmit
  rw [C.swCmd h, C.swLast h]
  exact C.emit _ _ (C.writeLast _ _ h)

theorem Congruence.scanLoop (w : Snapshot) (l : List SwIdx) : FlowRel R D (scanLoop w l s) (scanLoop w l t) := by
  induction l generalizing s t with
  | nil => exact h
  | cons i l ih =>
    simp only [Machine.scanLoop, C.tables h]
    split
    · refine (C.flipAndEmit h i).andThen fun u v hr => ?_
      rw [C.tables hr]
      split
      · exact hr
      · exact ih hr
    · exact ih h

/-- The scan's outcome depends on its two snapshots by the change word alone. -/
theorem Congruence.switchScan {c p c' p' : Snapshot} (hw : changedWord s.tables c p = changedWord s.tables c' p') :
    FlowRel R D (switchScan c p s) (switchScan c' p' t) := by
  have hc := C.configured h
  have h1 := C.afterChoice h
  unfold Machine.switchScan
  have hu : ∀ w, unregistered t w = unregistered s w := fun w => by simp only [unregistered, cfgMask, hc, C.tables h]
  simp only [C.tables h, ← hw, hu]
  split
  · exact h
  split
  · rw [C.nextChoice h, hc]; exact C.scanLoop h1 _ _
  · unfold faultingScan
    simp only [hits, C.configured h, C.tables h, C.nextChoice h, C.nextChoice h1]
    exact (C.scanLoop (C.afterChoice h1) _ _).andThen fun _ _ hr => C.fatal _ hr

theorem Congruence.leaveStart : FlowRel R D (leaveStart s) (leaveStart t) := by
  unfold Machine.leaveStart
  rw [C.tables h, C.rotVal h, C.startCmd h]
  split
  · exact C.emit _ _ h
  · exact h

theorem Congruence.takePosition (key : Snapshot) (j : RotIdx) : FlowRel R D (takePosition key j s) (takePosition key j t) := by
  unfold Machine.takePosition
  rw [C.tables h, C.rotCmd h]
  exact C.emit _ _ (C.writeRot _ h)

theorem Congruence.enterStart (key : Snapshot) : FlowRel R D (enterStart key s) (enterStart key t) := by
  unfold Machine.enterStart
  rw [C.tables h, C.startCmd h]
  split
  · exact C.emit _ _ h
  · exact h

theorem Congruence.badKey : FlowRel R D (badKey s) (badKey t) := by
  unfold Machine.badKey
  rw [C.nextChoice h]
  split
  · exact C.fatal _ (C.afterChoice h)
  · exact (C.leaveStart (C.afterChoice h)).andThen fun _ _ hr => C.fatal _ hr

/-- The rotary step's outcome depends on its snapshot by the key alone. -/
theorem Congruence.rotaryStep {c c' : Snapshot} (hk : rotKey s.tables c = rotKey s.tables c') :
    FlowRel R D (rotaryStep c s) (rotaryStep c' t) := by
  unfold Machine.rotaryStep
  simp only [C.tables h, C.rotVal h, ← hk]
  split
  · exact h
  split
  · exact C.badKey h
  · exact ((C.leaveStart h).andThen fun _ _ hr => C.takePosition hr _ _).andThen fun _ _ hr => C.enterStart hr _

/-- The switch pass depends on its snapshot by the entries' states alone. -/
theorem Congruence.initSwitches {c c' : Snapshot} (hs : switchState s.tables c = switchState s.tables c') :
    FlowRel R D (initSwitches c s) (initSwitches c' t) := by
  unfold Machine.initSwitches
  rw [C.nextChoice h, C.configured h]
  have h1 := C.afterChoice h
  have e : (Machine.afterChoice s).tables = s.tables := by unfold Machine.afterChoice; split <;> rfl
  generalize arrange (Machine.nextChoice s) (Machine.configured s) = l
  rw [← e] at hs
  generalize Machine.afterChoice s = u at *
  generalize Machine.afterChoice t = v at *
  clear h e
  induction l generalizing u v with
  | nil => exact h1
  | cons i l ih =>
    have hi : FlowRel (fun a b => R a b ∧ a.tables = u.tables) D (initSwitch c i u) (initSwitch c' i v) := by
      have h2 := C.emit u.swCmd[i] (bitAction (switchState u.tables c i)) (C.writeLast i (switchState u.tables c i) h1)
      have ht : ∀ a, Machine.emit u.swCmd[i] (bitAction (switchState u.tables c i)) (u.writeLast i (switchState u.tables c i)) = .on a →
          a.tables = u.tables := by
        intro a ha
        unfold Machine.emit sendError afterReply at ha
        repeat' split at ha
        all_goals simp only [Flow.on.injEq, Machine.fatal, reduceCtorEq] at ha
        all_goals rw [← ha]; rfl
      unfold initSwitch
      rw [C.swCmd h1, C.tables h1, ← congrFun hs i]
      revert h2 ht
      generalize Machine.emit _ _ (u.writeLast _ _) = f
      generalize Machine.emit _ _ (v.writeLast _ _) = g
      intro h2 ht
      cases f <;> cases g <;> first | exact h2.elim | exact ⟨h2, ht _ rfl⟩ | exact h2
    simp only [forEach]
    revert hi
    generalize initSwitch c i u = f
    generalize initSwitch c' i v = g
    intro hi
    cases f with
    | dead a => cases g with
      | dead b => exact hi
      | on b => exact hi.elim
    | on a => cases g with
      | dead b => exact hi.elim
      | on b => exact ih a (by rw [hi.2]; exact hs) b hi.1

/-- The rotary pass depends on its snapshot by the asserted positions alone. -/
theorem Congruence.initRotary {c c' : Snapshot} (ha : assertedRot s.tables c = assertedRot s.tables c') :
    FlowRel R D (initRotary c s) (initRotary c' t) := by
  unfold Machine.initRotary
  simp only [C.tables h, C.rotCmd h, C.nextChoice h, ← ha]
  split
  · exact h
  · exact C.emit _ _ (C.writeRot _ (C.afterChoice h))

end Sys2Proof.Machine
end

