-- ==== Sys2Proof/Laws/Decode.lean ====
section
/-! SUPPORT. One lemma per decoder and encoder function: what each header selects, when a name payload is read, and that digits and datagrams read back. -/

namespace Sys2Proof

theorem nameFits_iff (name : CmdName) : nameFits name = true ↔ name.length ≤ 255 := by
  exact decide_eq_true_iff

theorem wellFormed_frame (n b0 b1 b2 b3 : Byte) : wellFormed (.frame n b0 b1 b2 b3) = true ↔ n.toNat ≤ 4 := by
  simp only [wellFormed, decide_eq_true_eq]

theorem lengthByte_toNat {name : CmdName} (h : nameFits name = true) : (lengthByte name).toNat = name.length := by
  have := (nameFits_iff name).1 h
  simp [lengthByte]; omega

/-! ### What each header selects (30 R70) -/

@[simp] theorem decode_nil : decode [] = .error .noRecord := rfl
@[simp] theorem decode_header0 (r : List Byte) : decode (0x00#8 :: r) = decodeCfgsw r := rfl
@[simp] theorem decode_header1 (r : List Byte) : decode (0x01#8 :: r) = decodeNamed .cfgrot r := rfl
@[simp] theorem decode_header2 (r : List Byte) : decode (0x02#8 :: r) = decodeNamed .cfgstart r := rfl
@[simp] theorem decode_header3 (r : List Byte) : decode (0x03#8 :: r) = decodeNamed .cfggrt r := rfl
@[simp] theorem decode_header4 (r : List Byte) : decode (0x04#8 :: r) = decodeNamed .cfggpr r := rfl
@[simp] theorem decode_header5 (r : List Byte) : decode (0x05#8 :: r) = .ok (.build, r) := rfl
@[simp] theorem decode_header6 (r : List Byte) : decode (0x06#8 :: r) = decodeFrame r := rfl

/-- A header with its reserved bits clear is its selector. -/
theorem header_eq_op (h : Byte) (h0 : headerReserved h = 0#5) : h = BitVec.ofNat 8 (headerOp h).toNat := by
  revert h; decide

/-! ### Name payloads (30 R71) -/

/-- A name payload is read back whatever follows it. -/
theorem takeName_payload {name : CmdName} (rest : List Byte) (h : nameFits name = true) :
    takeName (lengthByte name :: (name ++ rest)) = .ok (name, rest) := by
  simp [takeName, lengthByte_toNat h]

/-- What `takeName` reads is a payload and a name that fits. -/
theorem takeName_eq_ok {bs rest : List Byte} {name : CmdName} (h : takeName bs = .ok (name, rest)) :
    bs = lengthByte name :: (name ++ rest) ∧ nameFits name = true := by
  cases bs with
  | nil => simp [takeName] at h
  | cons l r =>
    simp only [takeName] at h
    split at h
    · rename_i hl
      simp only [Except.ok.injEq, Prod.mk.injEq] at h
      obtain ⟨rfl, rfl⟩ := h
      have hlen : (r.take l.toNat).length = l.toNat := by simp; omega
      refine ⟨by simp [lengthByte, hlen], (nameFits_iff _).2 ?_⟩
      have := l.isLt
      omega
    · simp at h

/-- A payload cut short is truncated. -/
theorem takeName_cut {name : CmdName} {k : Nat} (h : nameFits name = true) (hk : k < name.length + 1) :
    takeName ((lengthByte name :: name).take k) = .error .truncated := by
  cases k with
  | zero => simp [takeName]
  | succ k => simp [takeName, lengthByte_toNat h]; omega

/-! ### Digits and datagrams (30 R77, R78) -/

@[simp] theorem digitAction_digit (a : Action) : digitAction (digit a) = some a := by
  revert a; decide

@[simp] theorem actionBit_bitAction (v : Bool) : actionBit (bitAction v) = some v := by
  cases v <;> rfl

/-- A datagram reads back as its name and action. -/
theorem decodeCommand_encodeCommand (name : CmdName) (a : Action) :
    decodeCommand (encodeCommand name a) = some (name, a) := by
  simp [decodeCommand, encodeCommand]

end Sys2Proof
end

