-- ==== Sys2Proof/Laws/Order.lean ====
section
/-! SUPPORT. Visiting a list in a numbered order visits each member once; a numbered choice is a member. -/

namespace Sys2Proof.Machine

variable {α : Type}

/-- Every numbered order is an order of the list (00 R10: the body runs once for every member). -/
theorem arrange_perm (k : Nat) (l : List α) : (arrange k l).Perm l := by
  induction l generalizing k with
  | nil => simp [arrange]
  | cons a l ih =>
    have hlen := (ih (k / (l.length + 1))).length_eq
    have hlt : k % (l.length + 1) ≤ (arrange (k / (l.length + 1)) l).length := by
      rw [hlen]; exact Nat.lt_succ_iff.1 (Nat.mod_lt _ (Nat.succ_pos _))
    exact (List.perm_insertIdx a _ hlt).trans ((ih _).cons a)

@[simp] theorem mem_arrange {k : Nat} {l : List α} {a : α} : a ∈ arrange k l ↔ a ∈ l :=
  (arrange_perm k l).mem_iff

theorem nodup_arrange {k : Nat} {l : List α} (h : l.Nodup) : (arrange k l).Nodup :=
  (arrange_perm k l).nodup_iff.2 h

@[simp] theorem length_arrange (k : Nat) (l : List α) : (arrange k l).length = l.length :=
  (arrange_perm k l).length_eq

/-- A numbered choice is a member (00 R10 "choose"). -/
theorem chooseFrom_mem (k : Nat) (j : α) (l : List α) : chooseFrom k j l ∈ j :: l := by
  have hlt : k % (l.length + 1) < (j :: l).length := Nat.mod_lt _ (Nat.succ_pos _)
  simp only [chooseFrom, List.getD_eq_getElem?_getD, List.getElem?_eq_getElem hlt, Option.getD_some]
  exact List.getElem_mem hlt

end Sys2Proof.Machine
end

