-- ==== Sys2Proof/Laws/State.lean ====
section
/-! SUPPORT. One lemma per field per named write, and per field for taking a fatal error; each true by rfl. -/

namespace Sys2Proof.Machine

variable (s : State)

@[simp] theorem State.writeLast_cur (i : SwIdx) (v : Bool) : (s.writeLast i v).cur = s.cur := rfl
@[simp] theorem State.writeLast_prev (i : SwIdx) (v : Bool) : (s.writeLast i v).prev = s.prev := rfl
@[simp] theorem State.writeLast_swValid (i : SwIdx) (v : Bool) : (s.writeLast i v).swValid = s.swValid := rfl
@[simp] theorem State.writeLast_swCmd (i : SwIdx) (v : Bool) : (s.writeLast i v).swCmd = s.swCmd := rfl
@[simp] theorem State.writeLast_swLast (i : SwIdx) (v : Bool) : (s.writeLast i v).swLast = s.swLast.set i v := rfl
@[simp] theorem State.writeLast_rotVal (i : SwIdx) (v : Bool) : (s.writeLast i v).rotVal = s.rotVal := rfl
@[simp] theorem State.writeLast_rotCmdValid (i : SwIdx) (v : Bool) : (s.writeLast i v).rotCmdValid = s.rotCmdValid := rfl
@[simp] theorem State.writeLast_rotCmd (i : SwIdx) (v : Bool) : (s.writeLast i v).rotCmd = s.rotCmd := rfl
@[simp] theorem State.writeLast_startCmdValid (i : SwIdx) (v : Bool) : (s.writeLast i v).startCmdValid = s.startCmdValid := rfl
@[simp] theorem State.writeLast_startCmd (i : SwIdx) (v : Bool) : (s.writeLast i v).startCmd = s.startCmd := rfl
@[simp] theorem State.writeLast_gearRetargetValid (i : SwIdx) (v : Bool) : (s.writeLast i v).gearRetargetValid = s.gearRetargetValid := rfl
@[simp] theorem State.writeLast_gearRetarget (i : SwIdx) (v : Bool) : (s.writeLast i v).gearRetarget = s.gearRetarget := rfl
@[simp] theorem State.writeLast_gearPrimerValid (i : SwIdx) (v : Bool) : (s.writeLast i v).gearPrimerValid = s.gearPrimerValid := rfl
@[simp] theorem State.writeLast_gearPrimer (i : SwIdx) (v : Bool) : (s.writeLast i v).gearPrimer = s.gearPrimer := rfl
@[simp] theorem State.writeLast_phase (i : SwIdx) (v : Bool) : (s.writeLast i v).phase = s.phase := rfl
@[simp] theorem State.writeLast_faultCode (i : SwIdx) (v : Bool) : (s.writeLast i v).faultCode = s.faultCode := rfl
@[simp] theorem State.writeLast_out (i : SwIdx) (v : Bool) : (s.writeLast i v).out = s.out := rfl
@[simp] theorem State.writeLast_tables (i : SwIdx) (v : Bool) : (s.writeLast i v).tables = s.tables := rfl
@[simp] theorem State.writeLast_input (i : SwIdx) (v : Bool) : (s.writeLast i v).input = s.input := rfl
@[simp] theorem State.writeLast_replies (i : SwIdx) (v : Bool) : (s.writeLast i v).replies = s.replies := rfl
@[simp] theorem State.writeLast_choices (i : SwIdx) (v : Bool) : (s.writeLast i v).choices = s.choices := rfl
@[simp] theorem State.writeLast_tick (i : SwIdx) (v : Bool) : (s.writeLast i v).tick = s.tick := rfl

@[simp] theorem State.bindSwitch_cur (i : SwIdx) (name : CmdName) : (s.bindSwitch i name).cur = s.cur := rfl
@[simp] theorem State.bindSwitch_prev (i : SwIdx) (name : CmdName) : (s.bindSwitch i name).prev = s.prev := rfl
@[simp] theorem State.bindSwitch_swValid (i : SwIdx) (name : CmdName) : (s.bindSwitch i name).swValid = s.swValid.set i true := rfl
@[simp] theorem State.bindSwitch_swCmd (i : SwIdx) (name : CmdName) : (s.bindSwitch i name).swCmd = s.swCmd.set i name := rfl
@[simp] theorem State.bindSwitch_swLast (i : SwIdx) (name : CmdName) : (s.bindSwitch i name).swLast = s.swLast := rfl
@[simp] theorem State.bindSwitch_rotVal (i : SwIdx) (name : CmdName) : (s.bindSwitch i name).rotVal = s.rotVal := rfl
@[simp] theorem State.bindSwitch_rotCmdValid (i : SwIdx) (name : CmdName) : (s.bindSwitch i name).rotCmdValid = s.rotCmdValid := rfl
@[simp] theorem State.bindSwitch_rotCmd (i : SwIdx) (name : CmdName) : (s.bindSwitch i name).rotCmd = s.rotCmd := rfl
@[simp] theorem State.bindSwitch_startCmdValid (i : SwIdx) (name : CmdName) : (s.bindSwitch i name).startCmdValid = s.startCmdValid := rfl
@[simp] theorem State.bindSwitch_startCmd (i : SwIdx) (name : CmdName) : (s.bindSwitch i name).startCmd = s.startCmd := rfl
@[simp] theorem State.bindSwitch_gearRetargetValid (i : SwIdx) (name : CmdName) : (s.bindSwitch i name).gearRetargetValid = s.gearRetargetValid := rfl
@[simp] theorem State.bindSwitch_gearRetarget (i : SwIdx) (name : CmdName) : (s.bindSwitch i name).gearRetarget = s.gearRetarget := rfl
@[simp] theorem State.bindSwitch_gearPrimerValid (i : SwIdx) (name : CmdName) : (s.bindSwitch i name).gearPrimerValid = s.gearPrimerValid := rfl
@[simp] theorem State.bindSwitch_gearPrimer (i : SwIdx) (name : CmdName) : (s.bindSwitch i name).gearPrimer = s.gearPrimer := rfl
@[simp] theorem State.bindSwitch_phase (i : SwIdx) (name : CmdName) : (s.bindSwitch i name).phase = s.phase := rfl
@[simp] theorem State.bindSwitch_faultCode (i : SwIdx) (name : CmdName) : (s.bindSwitch i name).faultCode = s.faultCode := rfl
@[simp] theorem State.bindSwitch_out (i : SwIdx) (name : CmdName) : (s.bindSwitch i name).out = s.out := rfl
@[simp] theorem State.bindSwitch_tables (i : SwIdx) (name : CmdName) : (s.bindSwitch i name).tables = s.tables := rfl
@[simp] theorem State.bindSwitch_input (i : SwIdx) (name : CmdName) : (s.bindSwitch i name).input = s.input := rfl
@[simp] theorem State.bindSwitch_replies (i : SwIdx) (name : CmdName) : (s.bindSwitch i name).replies = s.replies := rfl
@[simp] theorem State.bindSwitch_choices (i : SwIdx) (name : CmdName) : (s.bindSwitch i name).choices = s.choices := rfl
@[simp] theorem State.bindSwitch_tick (i : SwIdx) (name : CmdName) : (s.bindSwitch i name).tick = s.tick := rfl

@[simp] theorem State.writeRot_cur (m : Snapshot) : (s.writeRot m).cur = s.cur := rfl
@[simp] theorem State.writeRot_prev (m : Snapshot) : (s.writeRot m).prev = s.prev := rfl
@[simp] theorem State.writeRot_swValid (m : Snapshot) : (s.writeRot m).swValid = s.swValid := rfl
@[simp] theorem State.writeRot_swCmd (m : Snapshot) : (s.writeRot m).swCmd = s.swCmd := rfl
@[simp] theorem State.writeRot_swLast (m : Snapshot) : (s.writeRot m).swLast = s.swLast := rfl
@[simp] theorem State.writeRot_rotVal (m : Snapshot) : (s.writeRot m).rotVal = m := rfl
@[simp] theorem State.writeRot_rotCmdValid (m : Snapshot) : (s.writeRot m).rotCmdValid = s.rotCmdValid := rfl
@[simp] theorem State.writeRot_rotCmd (m : Snapshot) : (s.writeRot m).rotCmd = s.rotCmd := rfl
@[simp] theorem State.writeRot_startCmdValid (m : Snapshot) : (s.writeRot m).startCmdValid = s.startCmdValid := rfl
@[simp] theorem State.writeRot_startCmd (m : Snapshot) : (s.writeRot m).startCmd = s.startCmd := rfl
@[simp] theorem State.writeRot_gearRetargetValid (m : Snapshot) : (s.writeRot m).gearRetargetValid = s.gearRetargetValid := rfl
@[simp] theorem State.writeRot_gearRetarget (m : Snapshot) : (s.writeRot m).gearRetarget = s.gearRetarget := rfl
@[simp] theorem State.writeRot_gearPrimerValid (m : Snapshot) : (s.writeRot m).gearPrimerValid = s.gearPrimerValid := rfl
@[simp] theorem State.writeRot_gearPrimer (m : Snapshot) : (s.writeRot m).gearPrimer = s.gearPrimer := rfl
@[simp] theorem State.writeRot_phase (m : Snapshot) : (s.writeRot m).phase = s.phase := rfl
@[simp] theorem State.writeRot_faultCode (m : Snapshot) : (s.writeRot m).faultCode = s.faultCode := rfl
@[simp] theorem State.writeRot_out (m : Snapshot) : (s.writeRot m).out = s.out := rfl
@[simp] theorem State.writeRot_tables (m : Snapshot) : (s.writeRot m).tables = s.tables := rfl
@[simp] theorem State.writeRot_input (m : Snapshot) : (s.writeRot m).input = s.input := rfl
@[simp] theorem State.writeRot_replies (m : Snapshot) : (s.writeRot m).replies = s.replies := rfl
@[simp] theorem State.writeRot_choices (m : Snapshot) : (s.writeRot m).choices = s.choices := rfl
@[simp] theorem State.writeRot_tick (m : Snapshot) : (s.writeRot m).tick = s.tick := rfl

@[simp] theorem State.sent_cur (name : CmdName) (a : Action) : (s.sent name a).cur = s.cur := rfl
@[simp] theorem State.sent_prev (name : CmdName) (a : Action) : (s.sent name a).prev = s.prev := rfl
@[simp] theorem State.sent_swValid (name : CmdName) (a : Action) : (s.sent name a).swValid = s.swValid := rfl
@[simp] theorem State.sent_swCmd (name : CmdName) (a : Action) : (s.sent name a).swCmd = s.swCmd := rfl
@[simp] theorem State.sent_swLast (name : CmdName) (a : Action) : (s.sent name a).swLast = s.swLast := rfl
@[simp] theorem State.sent_rotVal (name : CmdName) (a : Action) : (s.sent name a).rotVal = s.rotVal := rfl
@[simp] theorem State.sent_rotCmdValid (name : CmdName) (a : Action) : (s.sent name a).rotCmdValid = s.rotCmdValid := rfl
@[simp] theorem State.sent_rotCmd (name : CmdName) (a : Action) : (s.sent name a).rotCmd = s.rotCmd := rfl
@[simp] theorem State.sent_startCmdValid (name : CmdName) (a : Action) : (s.sent name a).startCmdValid = s.startCmdValid := rfl
@[simp] theorem State.sent_startCmd (name : CmdName) (a : Action) : (s.sent name a).startCmd = s.startCmd := rfl
@[simp] theorem State.sent_gearRetargetValid (name : CmdName) (a : Action) : (s.sent name a).gearRetargetValid = s.gearRetargetValid := rfl
@[simp] theorem State.sent_gearRetarget (name : CmdName) (a : Action) : (s.sent name a).gearRetarget = s.gearRetarget := rfl
@[simp] theorem State.sent_gearPrimerValid (name : CmdName) (a : Action) : (s.sent name a).gearPrimerValid = s.gearPrimerValid := rfl
@[simp] theorem State.sent_gearPrimer (name : CmdName) (a : Action) : (s.sent name a).gearPrimer = s.gearPrimer := rfl
@[simp] theorem State.sent_phase (name : CmdName) (a : Action) : (s.sent name a).phase = s.phase := rfl
@[simp] theorem State.sent_faultCode (name : CmdName) (a : Action) : (s.sent name a).faultCode = s.faultCode := rfl
@[simp] theorem State.sent_out (name : CmdName) (a : Action) : (s.sent name a).out = s.out ++ [⟨name, a⟩] := rfl
@[simp] theorem State.sent_tables (name : CmdName) (a : Action) : (s.sent name a).tables = s.tables := rfl
@[simp] theorem State.sent_input (name : CmdName) (a : Action) : (s.sent name a).input = s.input := rfl
@[simp] theorem State.sent_replies (name : CmdName) (a : Action) : (s.sent name a).replies = s.replies := rfl
@[simp] theorem State.sent_choices (name : CmdName) (a : Action) : (s.sent name a).choices = s.choices := rfl
@[simp] theorem State.sent_tick (name : CmdName) (a : Action) : (s.sent name a).tick = s.tick := rfl

@[simp] theorem State.withReplies_cur (rs : List SendReply) : (s.withReplies rs).cur = s.cur := rfl
@[simp] theorem State.withReplies_prev (rs : List SendReply) : (s.withReplies rs).prev = s.prev := rfl
@[simp] theorem State.withReplies_swValid (rs : List SendReply) : (s.withReplies rs).swValid = s.swValid := rfl
@[simp] theorem State.withReplies_swCmd (rs : List SendReply) : (s.withReplies rs).swCmd = s.swCmd := rfl
@[simp] theorem State.withReplies_swLast (rs : List SendReply) : (s.withReplies rs).swLast = s.swLast := rfl
@[simp] theorem State.withReplies_rotVal (rs : List SendReply) : (s.withReplies rs).rotVal = s.rotVal := rfl
@[simp] theorem State.withReplies_rotCmdValid (rs : List SendReply) : (s.withReplies rs).rotCmdValid = s.rotCmdValid := rfl
@[simp] theorem State.withReplies_rotCmd (rs : List SendReply) : (s.withReplies rs).rotCmd = s.rotCmd := rfl
@[simp] theorem State.withReplies_startCmdValid (rs : List SendReply) : (s.withReplies rs).startCmdValid = s.startCmdValid := rfl
@[simp] theorem State.withReplies_startCmd (rs : List SendReply) : (s.withReplies rs).startCmd = s.startCmd := rfl
@[simp] theorem State.withReplies_gearRetargetValid (rs : List SendReply) : (s.withReplies rs).gearRetargetValid = s.gearRetargetValid := rfl
@[simp] theorem State.withReplies_gearRetarget (rs : List SendReply) : (s.withReplies rs).gearRetarget = s.gearRetarget := rfl
@[simp] theorem State.withReplies_gearPrimerValid (rs : List SendReply) : (s.withReplies rs).gearPrimerValid = s.gearPrimerValid := rfl
@[simp] theorem State.withReplies_gearPrimer (rs : List SendReply) : (s.withReplies rs).gearPrimer = s.gearPrimer := rfl
@[simp] theorem State.withReplies_phase (rs : List SendReply) : (s.withReplies rs).phase = s.phase := rfl
@[simp] theorem State.withReplies_faultCode (rs : List SendReply) : (s.withReplies rs).faultCode = s.faultCode := rfl
@[simp] theorem State.withReplies_out (rs : List SendReply) : (s.withReplies rs).out = s.out := rfl
@[simp] theorem State.withReplies_tables (rs : List SendReply) : (s.withReplies rs).tables = s.tables := rfl
@[simp] theorem State.withReplies_input (rs : List SendReply) : (s.withReplies rs).input = s.input := rfl
@[simp] theorem State.withReplies_replies (rs : List SendReply) : (s.withReplies rs).replies = rs := rfl
@[simp] theorem State.withReplies_choices (rs : List SendReply) : (s.withReplies rs).choices = s.choices := rfl
@[simp] theorem State.withReplies_tick (rs : List SendReply) : (s.withReplies rs).tick = s.tick := rfl

@[simp] theorem State.withChoices_cur (ks : List Nat) : (s.withChoices ks).cur = s.cur := rfl
@[simp] theorem State.withChoices_prev (ks : List Nat) : (s.withChoices ks).prev = s.prev := rfl
@[simp] theorem State.withChoices_swValid (ks : List Nat) : (s.withChoices ks).swValid = s.swValid := rfl
@[simp] theorem State.withChoices_swCmd (ks : List Nat) : (s.withChoices ks).swCmd = s.swCmd := rfl
@[simp] theorem State.withChoices_swLast (ks : List Nat) : (s.withChoices ks).swLast = s.swLast := rfl
@[simp] theorem State.withChoices_rotVal (ks : List Nat) : (s.withChoices ks).rotVal = s.rotVal := rfl
@[simp] theorem State.withChoices_rotCmdValid (ks : List Nat) : (s.withChoices ks).rotCmdValid = s.rotCmdValid := rfl
@[simp] theorem State.withChoices_rotCmd (ks : List Nat) : (s.withChoices ks).rotCmd = s.rotCmd := rfl
@[simp] theorem State.withChoices_startCmdValid (ks : List Nat) : (s.withChoices ks).startCmdValid = s.startCmdValid := rfl
@[simp] theorem State.withChoices_startCmd (ks : List Nat) : (s.withChoices ks).startCmd = s.startCmd := rfl
@[simp] theorem State.withChoices_gearRetargetValid (ks : List Nat) : (s.withChoices ks).gearRetargetValid = s.gearRetargetValid := rfl
@[simp] theorem State.withChoices_gearRetarget (ks : List Nat) : (s.withChoices ks).gearRetarget = s.gearRetarget := rfl
@[simp] theorem State.withChoices_gearPrimerValid (ks : List Nat) : (s.withChoices ks).gearPrimerValid = s.gearPrimerValid := rfl
@[simp] theorem State.withChoices_gearPrimer (ks : List Nat) : (s.withChoices ks).gearPrimer = s.gearPrimer := rfl
@[simp] theorem State.withChoices_phase (ks : List Nat) : (s.withChoices ks).phase = s.phase := rfl
@[simp] theorem State.withChoices_faultCode (ks : List Nat) : (s.withChoices ks).faultCode = s.faultCode := rfl
@[simp] theorem State.withChoices_out (ks : List Nat) : (s.withChoices ks).out = s.out := rfl
@[simp] theorem State.withChoices_tables (ks : List Nat) : (s.withChoices ks).tables = s.tables := rfl
@[simp] theorem State.withChoices_input (ks : List Nat) : (s.withChoices ks).input = s.input := rfl
@[simp] theorem State.withChoices_replies (ks : List Nat) : (s.withChoices ks).replies = s.replies := rfl
@[simp] theorem State.withChoices_choices (ks : List Nat) : (s.withChoices ks).choices = ks := rfl
@[simp] theorem State.withChoices_tick (ks : List Nat) : (s.withChoices ks).tick = s.tick := rfl

@[simp] theorem State.ticked_cur (k : Nat) : (s.ticked k).cur = s.cur := rfl
@[simp] theorem State.ticked_prev (k : Nat) : (s.ticked k).prev = s.prev := rfl
@[simp] theorem State.ticked_swValid (k : Nat) : (s.ticked k).swValid = s.swValid := rfl
@[simp] theorem State.ticked_swCmd (k : Nat) : (s.ticked k).swCmd = s.swCmd := rfl
@[simp] theorem State.ticked_swLast (k : Nat) : (s.ticked k).swLast = s.swLast := rfl
@[simp] theorem State.ticked_rotVal (k : Nat) : (s.ticked k).rotVal = s.rotVal := rfl
@[simp] theorem State.ticked_rotCmdValid (k : Nat) : (s.ticked k).rotCmdValid = s.rotCmdValid := rfl
@[simp] theorem State.ticked_rotCmd (k : Nat) : (s.ticked k).rotCmd = s.rotCmd := rfl
@[simp] theorem State.ticked_startCmdValid (k : Nat) : (s.ticked k).startCmdValid = s.startCmdValid := rfl
@[simp] theorem State.ticked_startCmd (k : Nat) : (s.ticked k).startCmd = s.startCmd := rfl
@[simp] theorem State.ticked_gearRetargetValid (k : Nat) : (s.ticked k).gearRetargetValid = s.gearRetargetValid := rfl
@[simp] theorem State.ticked_gearRetarget (k : Nat) : (s.ticked k).gearRetarget = s.gearRetarget := rfl
@[simp] theorem State.ticked_gearPrimerValid (k : Nat) : (s.ticked k).gearPrimerValid = s.gearPrimerValid := rfl
@[simp] theorem State.ticked_gearPrimer (k : Nat) : (s.ticked k).gearPrimer = s.gearPrimer := rfl
@[simp] theorem State.ticked_phase (k : Nat) : (s.ticked k).phase = s.phase := rfl
@[simp] theorem State.ticked_faultCode (k : Nat) : (s.ticked k).faultCode = s.faultCode := rfl
@[simp] theorem State.ticked_out (k : Nat) : (s.ticked k).out = s.out := rfl
@[simp] theorem State.ticked_tables (k : Nat) : (s.ticked k).tables = s.tables := rfl
@[simp] theorem State.ticked_input (k : Nat) : (s.ticked k).input = s.input := rfl
@[simp] theorem State.ticked_replies (k : Nat) : (s.ticked k).replies = s.replies := rfl
@[simp] theorem State.ticked_choices (k : Nat) : (s.ticked k).choices = s.choices := rfl
@[simp] theorem State.ticked_tick (k : Nat) : (s.ticked k).tick = s.tick + k := rfl

@[simp] theorem raiseFatal_cur (code : FaultCode) : (raiseFatal code s).cur = Config.freeSnapshot s.tick := rfl
@[simp] theorem raiseFatal_prev (code : FaultCode) : (raiseFatal code s).prev = Config.freeSnapshot (s.tick + 1) := rfl
@[simp] theorem raiseFatal_swValid (code : FaultCode) : (raiseFatal code s).swValid = s.swValid := rfl
@[simp] theorem raiseFatal_swCmd (code : FaultCode) : (raiseFatal code s).swCmd = s.swCmd := rfl
@[simp] theorem raiseFatal_swLast (code : FaultCode) : (raiseFatal code s).swLast = Config.freeBits s.tick := rfl
@[simp] theorem raiseFatal_rotVal (code : FaultCode) : (raiseFatal code s).rotVal = Config.freeSnapshot (s.tick + 2) := rfl
@[simp] theorem raiseFatal_rotCmdValid (code : FaultCode) : (raiseFatal code s).rotCmdValid = s.rotCmdValid := rfl
@[simp] theorem raiseFatal_rotCmd (code : FaultCode) : (raiseFatal code s).rotCmd = s.rotCmd := rfl
@[simp] theorem raiseFatal_startCmdValid (code : FaultCode) : (raiseFatal code s).startCmdValid = s.startCmdValid := rfl
@[simp] theorem raiseFatal_startCmd (code : FaultCode) : (raiseFatal code s).startCmd = s.startCmd := rfl
@[simp] theorem raiseFatal_gearRetargetValid (code : FaultCode) : (raiseFatal code s).gearRetargetValid = s.gearRetargetValid := rfl
@[simp] theorem raiseFatal_gearRetarget (code : FaultCode) : (raiseFatal code s).gearRetarget = s.gearRetarget := rfl
@[simp] theorem raiseFatal_gearPrimerValid (code : FaultCode) : (raiseFatal code s).gearPrimerValid = s.gearPrimerValid := rfl
@[simp] theorem raiseFatal_gearPrimer (code : FaultCode) : (raiseFatal code s).gearPrimer = s.gearPrimer := rfl
@[simp] theorem raiseFatal_phase (code : FaultCode) : (raiseFatal code s).phase = .fatal := rfl
@[simp] theorem raiseFatal_faultCode (code : FaultCode) : (raiseFatal code s).faultCode = code := rfl
@[simp] theorem raiseFatal_out (code : FaultCode) : (raiseFatal code s).out = s.out := rfl
@[simp] theorem raiseFatal_tables (code : FaultCode) : (raiseFatal code s).tables = s.tables := rfl
@[simp] theorem raiseFatal_input (code : FaultCode) : (raiseFatal code s).input = s.input := rfl
@[simp] theorem raiseFatal_replies (code : FaultCode) : (raiseFatal code s).replies = s.replies := rfl
@[simp] theorem raiseFatal_choices (code : FaultCode) : (raiseFatal code s).choices = s.choices := rfl
@[simp] theorem raiseFatal_tick (code : FaultCode) : (raiseFatal code s).tick = s.tick + 3 := rfl

@[simp] theorem afterChoice_cur : (afterChoice s).cur = s.cur := by unfold afterChoice; split <;> rfl
@[simp] theorem afterChoice_prev : (afterChoice s).prev = s.prev := by unfold afterChoice; split <;> rfl
@[simp] theorem afterChoice_swValid : (afterChoice s).swValid = s.swValid := by unfold afterChoice; split <;> rfl
@[simp] theorem afterChoice_swCmd : (afterChoice s).swCmd = s.swCmd := by unfold afterChoice; split <;> rfl
@[simp] theorem afterChoice_swLast : (afterChoice s).swLast = s.swLast := by unfold afterChoice; split <;> rfl
@[simp] theorem afterChoice_rotVal : (afterChoice s).rotVal = s.rotVal := by unfold afterChoice; split <;> rfl
@[simp] theorem afterChoice_rotCmdValid : (afterChoice s).rotCmdValid = s.rotCmdValid := by unfold afterChoice; split <;> rfl
@[simp] theorem afterChoice_rotCmd : (afterChoice s).rotCmd = s.rotCmd := by unfold afterChoice; split <;> rfl
@[simp] theorem afterChoice_startCmdValid : (afterChoice s).startCmdValid = s.startCmdValid := by unfold afterChoice; split <;> rfl
@[simp] theorem afterChoice_startCmd : (afterChoice s).startCmd = s.startCmd := by unfold afterChoice; split <;> rfl
@[simp] theorem afterChoice_gearRetargetValid : (afterChoice s).gearRetargetValid = s.gearRetargetValid := by unfold afterChoice; split <;> rfl
@[simp] theorem afterChoice_gearRetarget : (afterChoice s).gearRetarget = s.gearRetarget := by unfold afterChoice; split <;> rfl
@[simp] theorem afterChoice_gearPrimerValid : (afterChoice s).gearPrimerValid = s.gearPrimerValid := by unfold afterChoice; split <;> rfl
@[simp] theorem afterChoice_gearPrimer : (afterChoice s).gearPrimer = s.gearPrimer := by unfold afterChoice; split <;> rfl
@[simp] theorem afterChoice_phase : (afterChoice s).phase = s.phase := by unfold afterChoice; split <;> rfl
@[simp] theorem afterChoice_faultCode : (afterChoice s).faultCode = s.faultCode := by unfold afterChoice; split <;> rfl
@[simp] theorem afterChoice_out : (afterChoice s).out = s.out := by unfold afterChoice; split <;> rfl
@[simp] theorem afterChoice_tables : (afterChoice s).tables = s.tables := by unfold afterChoice; split <;> rfl
@[simp] theorem afterChoice_input : (afterChoice s).input = s.input := by unfold afterChoice; split <;> rfl
@[simp] theorem afterChoice_replies : (afterChoice s).replies = s.replies := by unfold afterChoice; split <;> rfl

@[simp] theorem afterReply_cur : (afterReply s).cur = s.cur := by unfold afterReply; split <;> rfl
@[simp] theorem afterReply_prev : (afterReply s).prev = s.prev := by unfold afterReply; split <;> rfl
@[simp] theorem afterReply_swValid : (afterReply s).swValid = s.swValid := by unfold afterReply; split <;> rfl
@[simp] theorem afterReply_swCmd : (afterReply s).swCmd = s.swCmd := by unfold afterReply; split <;> rfl
@[simp] theorem afterReply_swLast : (afterReply s).swLast = s.swLast := by unfold afterReply; split <;> rfl
@[simp] theorem afterReply_rotVal : (afterReply s).rotVal = s.rotVal := by unfold afterReply; split <;> rfl
@[simp] theorem afterReply_rotCmdValid : (afterReply s).rotCmdValid = s.rotCmdValid := by unfold afterReply; split <;> rfl
@[simp] theorem afterReply_rotCmd : (afterReply s).rotCmd = s.rotCmd := by unfold afterReply; split <;> rfl
@[simp] theorem afterReply_startCmdValid : (afterReply s).startCmdValid = s.startCmdValid := by unfold afterReply; split <;> rfl
@[simp] theorem afterReply_startCmd : (afterReply s).startCmd = s.startCmd := by unfold afterReply; split <;> rfl
@[simp] theorem afterReply_gearRetargetValid : (afterReply s).gearRetargetValid = s.gearRetargetValid := by unfold afterReply; split <;> rfl
@[simp] theorem afterReply_gearRetarget : (afterReply s).gearRetarget = s.gearRetarget := by unfold afterReply; split <;> rfl
@[simp] theorem afterReply_gearPrimerValid : (afterReply s).gearPrimerValid = s.gearPrimerValid := by unfold afterReply; split <;> rfl
@[simp] theorem afterReply_gearPrimer : (afterReply s).gearPrimer = s.gearPrimer := by unfold afterReply; split <;> rfl
@[simp] theorem afterReply_phase : (afterReply s).phase = s.phase := by unfold afterReply; split <;> rfl
@[simp] theorem afterReply_faultCode : (afterReply s).faultCode = s.faultCode := by unfold afterReply; split <;> rfl
@[simp] theorem afterReply_out : (afterReply s).out = s.out := by unfold afterReply; split <;> rfl
@[simp] theorem afterReply_tables : (afterReply s).tables = s.tables := by unfold afterReply; split <;> rfl
@[simp] theorem afterReply_input : (afterReply s).input = s.input := by unfold afterReply; split <;> rfl
@[simp] theorem afterReply_choices : (afterReply s).choices = s.choices := by unfold afterReply; split <;> rfl

end Sys2Proof.Machine
end

