-- ==== Sys2Proof/Laws/Flow.lean ====
section
/-! SUPPORT. What a statement of an operation can do, said once: going on it keeps the configuration, the sequencer and the snapshots and extends `out` by emittable commands; ending it is a fatal error with one of the codes named. Composition over `andThen` and `forEach`, and one lemma per shared operation. -/

namespace Sys2Proof.Machine

/-- What every statement leaves standing, fatal or not. -/
structure Kept (s t : State) : Prop where
  config : SameConfig s t
  tables : t.tables = s.tables
  input : t.input = s.input
  sent : ∃ l : List Command, t.out = s.out ++ l ∧ ∀ c ∈ l, Emittable s c

/-- What a statement that goes on leaves standing besides. -/
structure Went (s t : State) : Prop extends Kept s t where
  phase : t.phase = s.phase
  faultCode : t.faultCode = s.faultCode
  cur : t.cur = s.cur
  prev : t.prev = s.prev

/-- A statement run from `s` that reached `f`: it went on, or a fatal error with a code in `C` ended it. -/
def Sound (C : FaultCode → Prop) (s : State) (f : Flow) : Prop :=
  match f with
  | .on t => Went s t
  | .dead t => Kept s t ∧ t.phase = .fatal ∧ C t.faultCode

@[simp] theorem sound_on {C s t} : Sound C s (.on t) ↔ Went s t := Iff.rfl

@[simp] theorem sound_dead {C s t} : Sound C s (.dead t) ↔ Kept s t ∧ t.phase = .fatal ∧ C t.faultCode := Iff.rfl

theorem emittable_congr {s t : State} (hc : SameConfig s t) (ht : t.tables = s.tables) (c : Command) :
    Emittable t c ↔ Emittable s c := by
  obtain ⟨h1, h2, -, h3, -, h4, -⟩ := hc
  simp only [Emittable, h1, h2, h3, h4, ht]

theorem SameConfig.refl (s : State) : SameConfig s s := ⟨rfl, rfl, rfl, rfl, rfl, rfl, rfl, rfl, rfl, rfl⟩

theorem SameConfig.trans {s t u : State} (h : SameConfig s t) (k : SameConfig t u) : SameConfig s u := by
  simp_all only [SameConfig, and_self]

theorem Kept.refl (s : State) : Kept s s := ⟨SameConfig.refl s, rfl, rfl, [], by simp⟩

theorem Went.refl (s : State) : Went s s := ⟨Kept.refl s, rfl, rfl, rfl, rfl⟩

theorem Kept.trans {s t u : State} (h : Kept s t) (k : Kept t u) : Kept s u := by
  obtain ⟨l, hl, he⟩ := h.sent
  obtain ⟨m, hm, hf⟩ := k.sent
  refine ⟨h.config.trans k.config, k.tables.trans h.tables, k.input.trans h.input, l ++ m,
    by rw [hm, hl, List.append_assoc], fun c hc => ?_⟩
  rcases List.mem_append.1 hc with hc | hc
  · exact he c hc
  · exact (emittable_congr h.config h.tables c).1 (hf c hc)

theorem Went.trans {s t u : State} (h : Went s t) (k : Went t u) : Went s u :=
  ⟨h.toKept.trans k.toKept, k.phase.trans h.phase, k.faultCode.trans h.faultCode,
    k.cur.trans h.cur, k.prev.trans h.prev⟩

theorem Sound.mono {C D : FaultCode → Prop} {s : State} {f : Flow} (hcd : ∀ c, C c → D c) (h : Sound C s f) :
    Sound D s f := by
  cases f with
  | on t => exact h
  | dead t => exact ⟨h.1, h.2.1, hcd _ h.2.2⟩

/-- Composition: the second statement is asked about from the states the first goes on to. -/
theorem Sound.andThen {C : FaultCode → Prop} {s : State} {f : Flow} {k : State → Flow} (h : Sound C s f)
    (hk : ∀ t, f = .on t → Sound C t (k t)) : Sound C s (andThen f k) := by
  cases f with
  | dead t => exact h
  | on t =>
    have hkt := hk t rfl
    simp only [Machine.andThen]
    cases hf : k t with
    | on u => rw [hf] at hkt; exact Went.trans h hkt
    | dead u => rw [hf] at hkt; exact ⟨Kept.trans (Went.toKept h) hkt.1, hkt.2⟩

/-- A statement that follows bookkeeping which goes on. -/
theorem Sound.after {C : FaultCode → Prop} {s t : State} {f : Flow} (h : Went s t) (hf : Sound C t f) : Sound C s f := by
  cases f with
  | on u => exact Went.trans h hf
  | dead u => exact ⟨Kept.trans (Went.toKept h) hf.1, hf.2⟩

/-- A loop whose body is sound from every state that keeps what `s` has. -/
theorem sound_forEach {α : Type} {C : FaultCode → Prop} {body : α → State → Flow} {l : List α} {s : State}
    (h : ∀ a ∈ l, ∀ t, Went s t → Sound C t (body a t)) : Sound C s (forEach body l s) := by
  induction l generalizing s with
  | nil => exact Went.refl s
  | cons a l ih =>
    have h1 := h a (by simp) s (Went.refl s)
    refine Sound.andThen h1 fun t ht => ih fun b hb u hu => h b (by simp [hb]) u (Went.trans ?_ hu)
    rw [ht] at h1; exact h1

/-! ### Bookkeeping that goes on -/

/-- `t` is `s` but for the last-sent bits, the rotary value and the model's own bookkeeping. -/
abbrev SameButBits (s t : State) : Prop :=
  t = { s with swLast := t.swLast, rotVal := t.rotVal, replies := t.replies, choices := t.choices, tick := t.tick }

theorem went_of_same {s t : State} (h : SameButBits s t) : Went s t := by
  rw [h]
  exact ⟨⟨SameConfig.refl s, rfl, rfl, [], by simp⟩, rfl, rfl, rfl, rfl⟩

theorem went_writeLast (s : State) (i : SwIdx) (v : Bool) : Went s (s.writeLast i v) := went_of_same rfl

theorem went_writeRot (s : State) (m : Snapshot) : Went s (s.writeRot m) := went_of_same rfl

theorem went_afterChoice (s : State) : Went s (afterChoice s) := by
  unfold afterChoice; split <;> exact went_of_same rfl

theorem went_afterReply (s : State) : Went s (afterReply s) := by
  unfold afterReply; split <;> exact went_of_same rfl

theorem went_sent {s : State} {name : CmdName} {a : Action} (h : Emittable s ⟨name, a⟩) : Went s (s.sent name a) :=
  ⟨⟨SameConfig.refl s, rfl, rfl, [⟨name, a⟩], rfl, by simpa using h⟩, rfl, rfl, rfl, rfl⟩

theorem kept_raiseFatal (code : FaultCode) (s : State) : Kept s (raiseFatal code s) :=
  ⟨SameConfig.refl s, rfl, rfl, [], by simp⟩

/-! ### The shared operations -/

theorem sound_fatal {C : FaultCode → Prop} {code : FaultCode} (h : C code) (s : State) : Sound C s (fatal code s) :=
  ⟨kept_raiseFatal code s, rfl, h⟩

/-- `emit` of an emittable command: it goes on, or ends in TRANSPORT under the policy `fatal` (44 R184). -/
theorem sound_emit {C : FaultCode → Prop} {s : State} {name : CmdName} {a : Action} (h : Emittable s ⟨name, a⟩)
    (hC : s.tables.sendErrPolicy = .fatal → C .transport) : Sound C s (emit name a s) := by
  unfold emit
  split
  · exact Went.trans (went_afterReply s) (went_sent
      ((emittable_congr (went_afterReply s).config (went_afterReply s).tables _).2 h))
  · unfold sendError
    split
    · rename_i hp
      exact Sound.after (went_afterReply s) (sound_fatal (hC (by simpa using hp)) _)
    · exact went_afterReply s

theorem mem_configured {s : State} {i : SwIdx} : i ∈ configured s ↔ s.swValid[i] = true := by
  simp [configured]

theorem nodup_configured (s : State) : (configured s).Nodup := (List.nodup_finRange 15).filter _

theorem mem_hits {s : State} {w : Snapshot} {i : SwIdx} :
    i ∈ hits s w ↔ s.swValid[i] = true ∧ meets s.tables.bit[i] w = true := by
  simp [hits, mem_configured]

theorem nodup_hits (s : State) (w : Snapshot) : (hits s w).Nodup := (nodup_configured s).filter _

theorem emittable_switch {s : State} {i : SwIdx} {v : Bool} (h : s.swValid[i] = true) :
    Emittable s ⟨s.swCmd[i], bitAction v⟩ := .inl ⟨i, v, h, rfl⟩

theorem emittable_rotary (s : State) (j : RotIdx) : Emittable s ⟨s.rotCmd, s.tables.rotCode[j]⟩ := .inr (.inl ⟨j, rfl⟩)

theorem emittable_starter (s : State) (v : Bool) : Emittable s ⟨s.startCmd, bitAction v⟩ := .inr (.inr ⟨v, rfl⟩)

theorem went_emittable {s t : State} (h : Went s t) {c : Command} (hc : Emittable s c) : Emittable t c :=
  (emittable_congr h.config h.tables c).2 hc

theorem sound_flipAndEmit {C : FaultCode → Prop} {s : State} {i : SwIdx} (h : s.swValid[i] = true)
    (hC : s.tables.sendErrPolicy = .fatal → C .transport) : Sound C s (flipAndEmit i s) :=
  Sound.after (went_writeLast s i _) (sound_emit (went_emittable (went_writeLast s i _) (emittable_switch h)) hC)

theorem sound_initSwitch {C : FaultCode → Prop} {s : State} {i : SwIdx} {c : Snapshot} (h : s.swValid[i] = true)
    (hC : s.tables.sendErrPolicy = .fatal → C .transport) : Sound C s (initSwitch c i s) :=
  Sound.after (went_writeLast s i _) (sound_emit (went_emittable (went_writeLast s i _) (emittable_switch h)) hC)

theorem sound_scanLoop {C : FaultCode → Prop} {w : Snapshot} {l : List SwIdx} {s : State}
    (h : ∀ i ∈ l, s.swValid[i] = true) (hC : s.tables.sendErrPolicy = .fatal → C .transport) :
    Sound C s (scanLoop w l s) := by
  induction l generalizing s with
  | nil => exact Went.refl s
  | cons i l ih =>
    simp only [scanLoop]
    split
    · have h1 := sound_flipAndEmit (C := C) (h i (by simp)) hC
      refine h1.andThen fun t ht => ?_
      rw [ht] at h1
      have hv : t.swValid = s.swValid := (sound_on.1 h1).config.1
      split
      · exact Went.refl t
      · exact ih (fun j hj => by rw [hv]; exact h j (by simp [hj])) (by rw [(sound_on.1 h1).tables]; exact hC)
    · exact ih (fun j hj => h j (by simp [hj])) hC

/-- The switch scan: UNREGISTERED_BIT only with an unregistered changed bit (42 R144). -/
theorem sound_switchScan {C : FaultCode → Prop} {c p : Snapshot} {s : State}
    (hT : s.tables.sendErrPolicy = .fatal → C .transport)
    (hU : unregistered s (changedWord s.tables c p) ≠ 0#24 → C .unregisteredBit) : Sound C s (switchScan c p s) := by
  have w1 := went_afterChoice s
  have w2 := Went.trans w1 (went_afterChoice (afterChoice s))
  unfold switchScan
  simp only
  split
  · exact Went.refl s
  split
  · refine Sound.after w1 (sound_scanLoop (fun i hi => ?_) (by simpa using hT))
    simpa using mem_configured.1 (mem_arrange.1 hi)
  · rename_i hu
    unfold faultingScan
    refine Sound.after w2 (Sound.andThen (sound_scanLoop (fun i hi => ?_) (by simpa using hT)) fun t _ => sound_fatal (hU hu) t)
    have := mem_hits.1 (mem_arrange.1 (List.mem_of_mem_take hi))
    simpa using this.1

theorem sound_leaveStart {C : FaultCode → Prop} {s : State} (hT : s.tables.sendErrPolicy = .fatal → C .transport) :
    Sound C s (leaveStart s) := by
  unfold leaveStart
  split
  · exact sound_emit (emittable_starter s false) hT
  · exact Went.refl s

theorem sound_enterStart {C : FaultCode → Prop} {s : State} {key : Snapshot}
    (hT : s.tables.sendErrPolicy = .fatal → C .transport) : Sound C s (enterStart key s) := by
  unfold enterStart
  split
  · exact sound_emit (emittable_starter s true) hT
  · exact Went.refl s

theorem rotIndex_eq_some {tb : Tables} {m : Snapshot} {j : RotIdx} (h : rotIndex tb m = some j) : tb.rot[j] = m := by
  simpa using List.find?_some h

theorem rotIndex_eq_none {tb : Tables} {m : Snapshot} : rotIndex tb m = none ↔ ∀ j : RotIdx, tb.rot[j] ≠ m := by
  simp [rotIndex]

/-- The rotary step: ROTARY_KEY only with a key that is none of the positions (43 R162). -/
theorem sound_rotaryStep {C : FaultCode → Prop} {c : Snapshot} {s : State}
    (hT : s.tables.sendErrPolicy = .fatal → C .transport)
    (hK : rotKey s.tables c ≠ 0#24 → rotKey s.tables c ≠ s.rotVal →
      (∀ j : RotIdx, s.tables.rot[j] ≠ rotKey s.tables c) → C .rotaryKey) : Sound C s (rotaryStep c s) := by
  unfold rotaryStep
  simp only
  split
  · exact Went.refl s
  rename_i hk
  push Not at hk
  split
  · rename_i hn
    have hC := hK hk.1 hk.2 (rotIndex_eq_none.1 hn)
    unfold badKey
    split
    · exact Sound.after (went_afterChoice s) (sound_fatal hC _)
    · exact Sound.after (went_afterChoice s)
        (Sound.andThen (sound_leaveStart (by simpa using hT)) fun t _ => sound_fatal hC t)
  · rename_i j hj
    have h1 : Sound C s (leaveStart s) := sound_leaveStart hT
    have h2 : Sound C s (andThen (leaveStart s) (takePosition (rotKey s.tables c) j)) := by
      refine h1.andThen fun t ht => ?_
      rw [ht] at h1
      have ww := went_writeRot t (rotKey s.tables c)
      exact Sound.after ww (sound_emit (went_emittable ww (emittable_rotary t j))
        (by rw [ww.tables, (sound_on.1 h1).tables]; exact hT))
    refine h2.andThen fun t ht => sound_enterStart ?_
    rw [ht] at h2
    rw [(sound_on.1 h2).tables]; exact hT

theorem sound_initSwitches {C : FaultCode → Prop} {c : Snapshot} {s : State}
    (hT : s.tables.sendErrPolicy = .fatal → C .transport) : Sound C s (initSwitches c s) := by
  have w1 := went_afterChoice s
  refine Sound.after w1 (sound_forEach fun i hi t ht => sound_initSwitch ?_ ?_)
  · rw [ht.config.1, w1.config.1]; exact mem_configured.1 (mem_arrange.1 hi)
  · rw [ht.tables, w1.tables]; exact hT

theorem sound_initRotary {C : FaultCode → Prop} {c : Snapshot} {s : State}
    (hT : s.tables.sendErrPolicy = .fatal → C .transport) : Sound C s (initRotary c s) := by
  unfold initRotary
  split
  · exact Went.refl s
  · rename_i j0 js _
    have w := Went.trans (went_afterChoice s) (went_writeRot (afterChoice s) s.tables.rot[chooseFrom (nextChoice s) j0 js])
    exact Sound.after w (sound_emit (went_emittable w (emittable_rotary s _)) (by simpa using hT))

theorem sound_initialise {C : FaultCode → Prop} {c : Snapshot} {s : State}
    (hT : s.tables.sendErrPolicy = .fatal → C .transport) : Sound C s (initialise c s) := by
  have h1 : Sound C s (initSwitches c s) := sound_initSwitches hT
  refine h1.andThen fun t ht => sound_initRotary ?_
  rw [ht] at h1
  rw [(sound_on.1 h1).tables]; exact hT

end Sys2Proof.Machine
end

