-- ==== Sys2Proof/Laws/Frame.lean ====
section
/-! SUPPORT. When FRAME answers a next state and which, and what the two behaviours leave standing. -/

namespace Sys2Proof.Machine

theorem not_reserved {n : Byte} (h : n.toNat ≤ 4) : isReservedCount n = false := by
  simpa [isReservedCount] using h

theorem validCount_le {n : Byte} (h : ValidCount n) : n.toNat ≤ 4 := by
  unfold ValidCount at h; omega

theorem validCount_not_short {n : Byte} (h : ValidCount n) : isShort n = false := by
  unfold ValidCount at h; simp [isShort]; omega

/-- FRAME.INIT is what a valid frame does in READY (41 R120). -/
theorem execFrame_ready {s : State} {n : Byte} (b0 b1 b2 b3 : Byte) (hp : s.phase = .ready) (hn : ValidCount n) :
    execFrame n b0 b1 b2 b3 s = .next (flowState (frameInit (packSnapshot b0 b1 b2) s)) := by
  simp [execFrame, not_reserved (validCount_le hn), hp, validCount_not_short hn]

/-- FRAME.PROC is what a valid frame does in RUN (41 R120). -/
theorem execFrame_run {s : State} {n : Byte} (b0 b1 b2 b3 : Byte) (hp : s.phase = .run) (hn : ValidCount n) :
    execFrame n b0 b1 b2 b3 s = .next (flowState (frameProc (packSnapshot b0 b1 b2) s)) := by
  simp [execFrame, not_reserved (validCount_le hn), hp, validCount_not_short hn]

theorem exec_frame_ready {s : State} {n : Byte} (b0 b1 b2 b3 : Byte) (hp : s.phase = .ready) (hn : ValidCount n) :
    exec (.frame n b0 b1 b2 b3) s = .next (flowState (frameInit (packSnapshot b0 b1 b2) s)) :=
  execFrame_ready b0 b1 b2 b3 hp hn

theorem exec_frame_run {s : State} {n : Byte} (b0 b1 b2 b3 : Byte) (hp : s.phase = .run) (hn : ValidCount n) :
    exec (.frame n b0 b1 b2 b3) s = .next (flowState (frameProc (packSnapshot b0 b1 b2) s)) :=
  execFrame_run b0 b1 b2 b3 hp hn

/-- Everything FRAME can answer with a next state (41 R120). -/
theorem execFrame_next {s t : State} {n b0 b1 b2 b3 : Byte} (h : execFrame n b0 b1 b2 b3 s = .next t) :
    (n.toNat ≤ 2 ∧ (s.phase = .ready ∨ s.phase = .run) ∧ t = s) ∨
    (ValidCount n ∧ s.phase = .ready ∧ t = flowState (frameInit (packSnapshot b0 b1 b2) s)) ∨
    (ValidCount n ∧ s.phase = .run ∧ t = flowState (frameProc (packSnapshot b0 b1 b2) s)) := by
  unfold execFrame at h
  split at h
  · simp at h
  rename_i hr
  have hn : n.toNat ≤ 4 := by simpa [isReservedCount] using hr
  have hv : isShort n = false → ValidCount n := fun hs => by
    simp [isShort] at hs; unfold ValidCount; omega
  cases hs : isShort n
  · cases hp : s.phase <;> simp_all
  · have h2 : n.toNat ≤ 2 := by simpa [isShort] using hs
    cases hp : s.phase <;> simp_all

/-- What FRAME.INIT reached, by how `initialise` ended (41 R122). -/
theorem frameInit_cases (c : Snapshot) (s : State) :
    (∃ u, initialise c { s with cur := c } = .on u ∧
      flowState (frameInit c s) = { u with prev := u.cur, phase := .run }) ∨
    (∃ u, initialise c { s with cur := c } = .dead u ∧ flowState (frameInit c s) = u) := by
  unfold frameInit
  cases h : initialise c { s with cur := c } with
  | on u => exact .inl ⟨u, rfl, rfl⟩
  | dead u => exact .inr ⟨u, rfl, rfl⟩

/-- What FRAME.PROC reached, by how `process` ended (41 R127). -/
theorem frameProc_cases (c : Snapshot) (s : State) :
    (∃ u, process c s.prev { s with cur := c } = .on u ∧ flowState (frameProc c s) = { u with prev := u.cur }) ∨
    (∃ u, process c s.prev { s with cur := c } = .dead u ∧ flowState (frameProc c s) = u) := by
  unfold frameProc
  cases h : process c s.prev { s with cur := c } with
  | on u => exact .inl ⟨u, rfl, rfl⟩
  | dead u => exact .inr ⟨u, rfl, rfl⟩

theorem kept_cur (s : State) (c : Snapshot) : Kept s { s with cur := c } :=
  ⟨SameConfig.refl s, rfl, rfl, [], by simp⟩

/-- FRAME.INIT keeps the configuration and extends `out`; it ends in RUN at the snapshot or in FATAL by TRANSPORT (41 R122, 60 R207). -/
theorem frameInit_kept (c : Snapshot) (s : State) :
    Kept s (flowState (frameInit c s)) ∧
    (((flowState (frameInit c s)).phase = .run ∧ (flowState (frameInit c s)).faultCode = s.faultCode ∧
        (flowState (frameInit c s)).cur = c ∧ (flowState (frameInit c s)).prev = c) ∨
      ((flowState (frameInit c s)).phase = .fatal ∧ (flowState (frameInit c s)).faultCode = .transport ∧
        s.tables.sendErrPolicy = .fatal)) := by
  have h : Sound (fun k => k = .transport ∧ s.tables.sendErrPolicy = .fatal) { s with cur := c }
    (initialise c { s with cur := c }) := sound_initialise fun hp => ⟨rfl, hp⟩
  rcases frameInit_cases c s with ⟨u, hu, ht⟩ | ⟨u, hu, ht⟩ <;> rw [hu] at h <;> rw [ht]
  · obtain ⟨hk, h1, h2, h3, h4⟩ := sound_on.1 h
    have := (kept_cur s c).trans hk
    exact ⟨⟨this.config, this.tables, this.input, this.sent⟩, .inl ⟨rfl, h2, h3, h3⟩⟩
  · obtain ⟨hk, h1, h2⟩ := sound_dead.1 h
    exact ⟨(kept_cur s c).trans hk, .inr ⟨h1, h2⟩⟩

theorem sound_process {C : FaultCode → Prop} {c p : Snapshot} {s : State}
    (hT : s.tables.sendErrPolicy = .fatal → C .transport)
    (hU : unregistered s (changedWord s.tables c p) ≠ 0#24 → C .unregisteredBit)
    (hK : ∀ v : Snapshot, (∃ t, switchScan c p s = .on t ∧ t.rotVal = v) → rotKey s.tables c ≠ 0#24 →
      rotKey s.tables c ≠ v → (∀ j : RotIdx, s.tables.rot[j] ≠ rotKey s.tables c) → C .rotaryKey) :
    Sound C s (process c p s) := by
  have h1 : Sound C s (switchScan c p s) := sound_switchScan hT hU
  refine h1.andThen fun t ht => ?_
  rw [ht] at h1
  refine sound_rotaryStep (by rw [(sound_on.1 h1).tables]; exact hT) ?_
  rw [(sound_on.1 h1).tables]
  exact hK t.rotVal ⟨t, ht, rfl⟩

end Sys2Proof.Machine
end

