-- ==== Sys2Proof/Laws/Effects.lean ====
section
/-! SUPPORT. What an operation that goes on has done to the last-sent bits and the rotary value, whatever the sends were answered. -/

namespace Sys2Proof.Machine

/-- `emit` writes neither `sw_last` nor `rot_val` when it goes on (44 R180). -/
theorem emit_on {s t : State} {name : CmdName} {a : Action} (h : emit name a s = .on t) :
    t.swLast = s.swLast ∧ t.rotVal = s.rotVal := by
  unfold emit sendError at h
  split at h
  · simp only [Flow.on.injEq] at h; subst h; simp
  · split at h
    · simp [fatal] at h
    · simp only [Flow.on.injEq] at h; subst h; simp

theorem andThen_on {f : Flow} {k : State → Flow} {t : State} (h : andThen f k = .on t) :
    ∃ u, f = .on u ∧ k u = .on t := by
  cases f with
  | on u => exact ⟨u, rfl, h⟩
  | dead u => simp [andThen] at h

theorem getElem_writeLast (s : State) (i j : SwIdx) (v : Bool) :
    (s.writeLast i v).swLast[j] = if j = i then v else s.swLast[j] := by
  by_cases h : i.val = j.val
  · have := Fin.ext h; subst this; simp
  · have : j ≠ i := fun e => h (by rw [e])
    simp [h, this]

/-- The switch pass records every entry of the list (41 R123). -/
theorem initLoop_on {c : Snapshot} {l : List SwIdx} {s t : State} (hl : ∀ i ∈ l, s.swValid[i] = true)
    (h : forEach (initSwitch c) l s = .on t) :
    t.rotVal = s.rotVal ∧ ∀ j : SwIdx, t.swLast[j] = if j ∈ l then switchState s.tables c j else s.swLast[j] := by
  induction l generalizing s with
  | nil => simp only [forEach, Flow.on.injEq] at h; subst h; simp
  | cons i l ih =>
    obtain ⟨u, hu, h⟩ := andThen_on h
    have hs : Sound (fun _ => True) s (initSwitch c i s) := sound_initSwitch (hl i (by simp)) (fun _ => trivial)
    rw [hu] at hs
    obtain ⟨h1, h2⟩ := emit_on hu
    obtain ⟨h3, h4⟩ := ih (fun j hj => by rw [(sound_on.1 hs).config.1]; exact hl j (by simp [hj])) h
    refine ⟨by rw [h3, h2]; rfl, fun j => ?_⟩
    rw [h4, (sound_on.1 hs).tables, h1, getElem_writeLast]
    by_cases hj : j ∈ l <;> by_cases hi : j = i <;> simp [hj, hi]

/-- The scan's loop flips exactly the entries of the list that meet the change word (42 R142). -/
theorem scanLoop_on {w : Snapshot} {l : List SwIdx} {s t : State} (hV : s.tables.MasksValid) (hn : l.Nodup)
    (hl : ∀ i ∈ l, s.swValid[i] = true) (h : scanLoop w l s = .on t) :
    t.rotVal = s.rotVal ∧
      ∀ j : SwIdx, t.swLast[j] = if j ∈ l ∧ meets s.tables.bit[j] w = true then !s.swLast[j] else s.swLast[j] := by
  induction l generalizing s with
  | nil => simp only [scanLoop, Flow.on.injEq] at h; subst h; simp
  | cons i l ih =>
    obtain ⟨hil, hn⟩ := List.nodup_cons.1 hn
    simp only [scanLoop] at h
    split at h
    · rename_i hm
      obtain ⟨u, hu, h⟩ := andThen_on h
      have hs : Sound (fun _ => True) s (flipAndEmit i s) := sound_flipAndEmit (hl i (by simp)) (fun _ => trivial)
      rw [hu] at hs
      have ht := (sound_on.1 hs).tables
      obtain ⟨h1, h2⟩ := emit_on hu
      split at h
      · rename_i he
        simp only [Flow.on.injEq] at h
        subst h
        refine ⟨h2, fun j => ?_⟩
        rw [h1, getElem_writeLast]
        by_cases hj : j = i
        · subst hj; simp only [if_true, List.mem_cons, true_or, hm, and_self]
        · have : ¬(meets s.tables.bit[j] w = true) := fun hmj => hj (bit_meets_bit hV (by rw [ht] at he; rwa [he]))
          simp only [hj, this, if_false, and_false, Bool.false_eq_true]
      · obtain ⟨h3, h4⟩ := ih (by rw [ht]; exact hV) hn
          (fun j hj => by rw [(sound_on.1 hs).config.1]; exact hl j (by simp [hj])) h
        refine ⟨by rw [h3, h2]; rfl, fun j => ?_⟩
        rw [h4, ht, h1, getElem_writeLast]
        by_cases hj : j = i
        · subst hj; simp only [hil, hm, if_true, if_false, false_and, List.mem_cons, true_or, and_self]
        · simp only [hj, if_false, List.mem_cons, false_or]
    · rename_i hm
      obtain ⟨h3, h4⟩ := ih hV hn (fun j hj => hl j (by simp [hj])) h
      refine ⟨h3, fun j => ?_⟩
      rw [h4]
      by_cases hj : j = i
      · subst hj; simp only [hil, hm, and_false, Bool.false_eq_true]
      · simp only [hj, List.mem_cons, false_or]

/-- The scan's loop leaves the entries outside the list alone, in any instance (42 R142). -/
theorem scanLoop_other {w : Snapshot} {l : List SwIdx} {s t : State} {j : SwIdx} (hj : j ∉ l)
    (h : scanLoop w l s = .on t) : t.swLast[j] = s.swLast[j] := by
  induction l generalizing s with
  | nil => simp only [scanLoop, Flow.on.injEq] at h; subst h; rfl
  | cons i l ih =>
    have hji : j ≠ i := fun e => hj (by simp [e])
    have hjl : j ∉ l := fun e => hj (by simp [e])
    simp only [scanLoop] at h
    split at h
    · obtain ⟨u, hu, h⟩ := andThen_on h
      have h1 : u.swLast[j] = s.swLast[j] := by rw [(emit_on hu).1, getElem_writeLast, if_neg hji]
      split at h
      · simp only [Flow.on.injEq] at h; subst h; exact h1
      · rw [ih hjl h, h1]
    · exact ih hjl h

/-- The scan leaves unconfigured entries alone, in any instance (42 R142). -/
theorem switchScan_other {c p : Snapshot} {s t : State} {j : SwIdx} (hj : s.swValid[j] = false)
    (h : switchScan c p s = .on t) : t.swLast[j] = s.swLast[j] := by
  unfold switchScan at h
  simp only at h
  split at h
  · simp only [Flow.on.injEq] at h; subst h; rfl
  split at h
  · rw [scanLoop_other (fun hm => ?_) h, afterChoice_swLast]
    rw [mem_arrange, mem_configured, hj] at hm
    exact Bool.false_ne_true hm
  · obtain ⟨u, -, h⟩ := andThen_on h
    simp [fatal] at h

/-- A scan that goes on has met no unregistered bit and has flipped exactly the hits (42 R142, R144). -/
theorem switchScan_on {c p : Snapshot} {s t : State} (hV : s.tables.MasksValid) (h : switchScan c p s = .on t) :
    t.rotVal = s.rotVal ∧
      ∀ j : SwIdx, t.swLast[j] = if j ∈ hits s (changedWord s.tables c p) then !s.swLast[j] else s.swLast[j] := by
  unfold switchScan at h
  simp only at h
  split at h
  · rename_i h0
    simp only [Flow.on.injEq] at h
    subst h
    refine ⟨rfl, fun j => ?_⟩
    have : ¬(j ∈ hits s (changedWord s.tables c p)) := by
      rw [mem_hits, h0]; simp [meets]
    simp only [this, if_false]
  split at h
  · obtain ⟨h1, h2⟩ := scanLoop_on (by simpa using hV) (nodup_arrange (nodup_configured s))
      (fun i hi => by simpa using mem_configured.1 (mem_arrange.1 hi)) h
    refine ⟨by rw [h1]; simp, fun j => ?_⟩
    rw [h2]
    simp only [afterChoice_tables, afterChoice_swLast, mem_arrange, mem_configured, mem_hits]
  · obtain ⟨u, -, h⟩ := andThen_on h
    simp [fatal] at h

/-- The scan never writes `rot_val` when it goes on, in any instance (42 R142). -/
theorem scanLoop_rotVal {w : Snapshot} {l : List SwIdx} {s t : State} (h : scanLoop w l s = .on t) :
    t.rotVal = s.rotVal := by
  induction l generalizing s with
  | nil => simp only [scanLoop, Flow.on.injEq] at h; subst h; rfl
  | cons i l ih =>
    simp only [scanLoop] at h
    split at h
    · obtain ⟨u, hu, h⟩ := andThen_on h
      have h2 : u.rotVal = s.rotVal := (emit_on hu).2
      split at h
      · simp only [Flow.on.injEq] at h; subst h; exact h2
      · rw [ih h, h2]
    · exact ih h

theorem switchScan_rotVal {c p : Snapshot} {s t : State} (h : switchScan c p s = .on t) : t.rotVal = s.rotVal := by
  unfold switchScan at h
  simp only at h
  split at h
  · simp only [Flow.on.injEq] at h; subst h; rfl
  split at h
  · rw [scanLoop_rotVal h]; simp
  · obtain ⟨u, -, h⟩ := andThen_on h
    simp [fatal] at h

/-- A rotary step that goes on was silent, or has made one of the positions active (43 R161, R164). -/
theorem rotaryStep_on {c : Snapshot} {s t : State} (h : rotaryStep c s = .on t) :
    t.swLast = s.swLast ∧
    (((rotKey s.tables c = 0#24 ∨ rotKey s.tables c = s.rotVal) ∧ t = s) ∨
     (rotKey s.tables c ≠ 0#24 ∧ rotKey s.tables c ≠ s.rotVal ∧ t.rotVal = rotKey s.tables c ∧
       ∃ j : RotIdx, rotKey s.tables c = s.tables.rot[j])) := by
  unfold rotaryStep at h
  simp only at h
  split at h
  · rename_i hk
    simp only [Flow.on.injEq] at h
    exact ⟨by rw [h], .inl ⟨hk, h.symm⟩⟩
  rename_i hk
  push Not at hk
  split at h
  · unfold badKey at h
    split at h
    · simp [fatal] at h
    · obtain ⟨u, -, h⟩ := andThen_on h
      simp [fatal] at h
  · rename_i j hj
    obtain ⟨u, hu, h⟩ := andThen_on h
    obtain ⟨v, hv, hu⟩ := andThen_on hu
    have h1 : v.swLast = s.swLast := by
      unfold leaveStart at hv
      split at hv
      · exact (emit_on hv).1
      · simp only [Flow.on.injEq] at hv; rw [hv]
    obtain ⟨h2, h3⟩ := emit_on hu
    have h4 : t.swLast = u.swLast ∧ t.rotVal = u.rotVal := by
      unfold enterStart at h
      split at h
      · exact emit_on h
      · simp only [Flow.on.injEq] at h; subst h; exact ⟨rfl, rfl⟩
    exact ⟨by rw [h4.1, h2, State.writeRot_swLast, h1],
      .inr ⟨hk.1, hk.2, by rw [h4.2, h3, State.writeRot_rotVal], j, (rotIndex_eq_some hj).symm⟩⟩

/-- The rotary pass of `initialise` leaves `rot_val` or makes an asserted position active (41 R124). -/
theorem initRotary_on {c : Snapshot} {s t : State} (h : initRotary c s = .on t) :
    t.swLast = s.swLast ∧ (t.rotVal = s.rotVal ∨ ∃ j : RotIdx, t.rotVal = s.tables.rot[j]) := by
  unfold initRotary at h
  split at h
  · simp only [Flow.on.injEq] at h; subst h; exact ⟨rfl, .inl rfl⟩
  · obtain ⟨h1, h2⟩ := emit_on h
    exact ⟨by rw [h1]; simp, .inr ⟨_, by rw [h2, State.writeRot_rotVal]⟩⟩

/-- `initialise` records every configured entry's state and nothing of the others (41 R123, R126). -/
theorem initialise_on {c : Snapshot} {s t : State} (h : initialise c s = .on t) :
    (∀ j : SwIdx, t.swLast[j] = if s.swValid[j] = true then switchState s.tables c j else s.swLast[j]) ∧
      (t.rotVal = s.rotVal ∨ ∃ j : RotIdx, t.rotVal = s.tables.rot[j]) := by
  obtain ⟨u, hu, h⟩ := andThen_on h
  have hs : Sound (fun _ => True) s (initSwitches c s) := sound_initSwitches (fun _ => trivial)
  rw [hu] at hs
  obtain ⟨h1, h2⟩ := initLoop_on (fun i hi => by simpa using mem_configured.1 (mem_arrange.1 hi)) hu
  obtain ⟨h3, h4⟩ := initRotary_on h
  refine ⟨fun j => ?_, ?_⟩
  · rw [h3, h2]
    simp only [mem_arrange, mem_configured, afterChoice_tables, afterChoice_swLast]
  · rw [(sound_on.1 hs).tables, h1] at h4
    simpa using h4

end Sys2Proof.Machine
end

