-- ==== Sys2Proof/Laws/Sends.lean ====
section
/-! SUPPORT. The operations when every send is answered ok: exactly which commands, flips and replies they leave. -/

namespace Sys2Proof.Machine

/-- `emit` with an ok at the head of the script (44 R180). -/
theorem emit_ok {s : State} {rs : List SendReply} (h : s.replies = .ok :: rs) (name : CmdName) (a : Action) :
    emit name a s = .on ((s.withReplies rs).sent name a) := by
  simp [emit, nextReply, afterReply, h]

/-- `emit` with an err at the head of the script (44 R184). -/
theorem emit_err {s : State} {rs : List SendReply} (h : s.replies = .err :: rs) (name : CmdName) (a : Action) :
    emit name a s = sendError (s.withReplies rs) := by
  simp [emit, nextReply, afterReply, h]

theorem sendsOk_succ {s : State} {k : Nat} (h : SendsOk s (k + 1)) :
    ∃ rs, s.replies = .ok :: rs ∧ rs.take k = List.replicate k .ok := by
  unfold SendsOk at h
  cases hr : s.replies with
  | nil => simp [hr] at h
  | cons r rs =>
    rw [hr, List.take_succ_cons, List.replicate_succ, List.cons.injEq] at h
    exact ⟨rs, by rw [h.1], h.2⟩

theorem sendsOk_mono {s : State} {k m : Nat} (h : SendsOk s m) (hk : k ≤ m) : SendsOk s k := by
  unfold SendsOk at *
  have := congrArg (List.take k) h
  rwa [List.take_take, List.take_replicate, Nat.min_eq_left hk] at this

theorem sendsOk_drop {s : State} {k m : Nat} (h : SendsOk s (k + m)) :
    (s.replies.drop k).take m = List.replicate m .ok := by
  unfold SendsOk at h
  rw [List.take_add, List.replicate_add] at h
  exact (List.append_inj h (by
    have := congrArg List.length h
    simp at this ⊢; omega)).2

/-- The state after one command has been sent ok. -/
def sentOk (s : State) (name : CmdName) (a : Action) : State := (s.withReplies s.replies.tail).sent name a

/-- The state after the entries of a list have each had `v` recorded and sent ok, in order. -/
def recordAll (v : SwIdx → Bool) : List SwIdx → State → State
  | [], s => s
  | i :: l, s => recordAll v l (sentOk (s.writeLast i (v i)) s.swCmd[i] (bitAction (v i)))

/-- What `recordAll` leaves: the bits and commands of the list, one reply used per command, all else as before. -/
theorem recordAll_eq (v : SwIdx → Bool) (l : List SwIdx) (s : State) :
    recordAll v l s = { s with
      swLast := (recordAll v l s).swLast
      out := s.out ++ l.map (switchCommand s v)
      replies := s.replies.drop l.length } := by
  induction l generalizing s with
  | nil => simp [recordAll]
  | cons i l ih =>
    rw [recordAll, ih]
    simp [sentOk, State.sent, State.withReplies, State.writeLast, switchCommand]

theorem recordAll_swLast (v : SwIdx → Bool) (l : List SwIdx) (s : State) (j : SwIdx) :
    (recordAll v l s).swLast[j] = if j ∈ l then v j else s.swLast[j] := by
  induction l generalizing s with
  | nil => simp [recordAll]
  | cons i l ih =>
    rw [recordAll, ih]
    by_cases hj : j ∈ l
    · simp [hj]
    · simp only [hj, if_false, List.mem_cons, or_false]
      simp [sentOk, State.writeLast, Vector.getElem_set, Fin.ext_iff]
      by_cases h : i.val = j.val
      · have := Fin.ext h; subst this; simp
      · simp [h, Ne.symm h]

@[simp] theorem recordAll_tables (v : SwIdx → Bool) (l : List SwIdx) (s : State) :
    (recordAll v l s).tables = s.tables := by rw [recordAll_eq]

@[simp] theorem recordAll_out (v : SwIdx → Bool) (l : List SwIdx) (s : State) :
    (recordAll v l s).out = s.out ++ l.map (switchCommand s v) := by rw [recordAll_eq]

@[simp] theorem recordAll_replies (v : SwIdx → Bool) (l : List SwIdx) (s : State) :
    (recordAll v l s).replies = s.replies.drop l.length := by rw [recordAll_eq]

theorem emit_sentOk {s : State} {k : Nat} (h : SendsOk s (k + 1)) (name : CmdName) (a : Action) :
    emit name a s = .on (sentOk s name a) := by
  obtain ⟨rs, hr, -⟩ := sendsOk_succ h
  rw [emit_ok hr]; simp [sentOk, hr]

theorem sendsOk_sentOk {s : State} {k : Nat} (h : SendsOk s (k + 1)) (name : CmdName) (a : Action) :
    SendsOk (sentOk s name a) k := by
  obtain ⟨rs, hr, hk⟩ := sendsOk_succ h
  simpa [SendsOk, sentOk, hr] using hk

/-- The switch pass, every send ok (41 R123). -/
theorem initSwitch_loop {c : Snapshot} {l : List SwIdx} {s : State} (h : SendsOk s l.length) :
    forEach (initSwitch c) l s = .on (recordAll (switchState s.tables c) l s) := by
  induction l generalizing s with
  | nil => rfl
  | cons i l ih =>
    have h1 : SendsOk (s.writeLast i (switchState s.tables c i)) (l.length + 1) := h
    simp only [forEach, initSwitch, emit_sentOk h1, andThen]
    rw [ih (sendsOk_sentOk h1 _ _)]
    rfl

/-- The scan's loop, every send ok: flips and commands for a front part of the changed entries, all of them where the early exit (42 R143) leaves nothing out: in a valid instance, or where no entry is all of the change word. -/
theorem scanLoop_ok {w : Snapshot} {v : SwIdx → Bool} {l : List SwIdx} {s : State} (hn : l.Nodup)
    (hv : ∀ i ∈ l, v i = !s.swLast[i]) (h : SendsOk s (l.filter fun i => meets s.tables.bit[i] w).length) :
    ∃ part, part <+: (l.filter fun i => meets s.tables.bit[i] w) ∧
      (s.tables.MasksValid ∨ (∀ i ∈ l, s.tables.bit[i] ≠ w) → part = l.filter fun i => meets s.tables.bit[i] w) ∧
      scanLoop w l s = .on (recordAll v part s) := by
  induction l generalizing s with
  | nil => exact ⟨[], by simp, by simp, rfl⟩
  | cons i l ih =>
    obtain ⟨hil, hn⟩ := List.nodup_cons.1 hn
    by_cases hm : meets s.tables.bit[i] w = true
    · simp only [List.filter_cons, hm, if_true] at h ⊢
      have h1 : SendsOk (s.writeLast i (v i)) ((l.filter fun i => meets s.tables.bit[i] w).length + 1) := h
      have hf : flipAndEmit i s = .on (sentOk (s.writeLast i (v i)) s.swCmd[i] (bitAction (v i))) := by
        unfold flipAndEmit
        rw [← hv i (by simp)]
        exact emit_sentOk h1 _ _
      simp only [scanLoop, hm, if_true, hf, andThen]
      split
      · rename_i he
        refine ⟨[i], by simp, fun hV => ?_, rfl⟩
        rw [List.filter_eq_nil_iff.2]
        intro j hj hmj
        refine hil ?_
        have hb : s.tables.bit[i] = w := he
        rw [← hb] at hmj
        rwa [← bit_meets_bit (hV.resolve_right fun h => h i (by simp) hb) hmj]
      · obtain ⟨part, hp, hV, hs⟩ := ih (s := sentOk (s.writeLast i (v i)) s.swCmd[i] (bitAction (v i))) hn
          (fun j hj => by
            have hne : i.val ≠ j.val := fun e => hil (Fin.ext e ▸ hj)
            rw [hv j (by simp [hj])]
            simp [sentOk, State.writeLast, hne])
          (sendsOk_sentOk h1 _ _)
        refine ⟨i :: part, ?_, fun hV' => by rw [hV (hV'.imp_right fun h j hj => h j (by simp [hj]))]; rfl, hs⟩
        exact (List.prefix_cons_inj i).2 hp
    · simp only [List.filter_cons, hm] at h ⊢
      simp only [scanLoop, hm]
      obtain ⟨part, hp, hV, hs⟩ := ih hn (fun j hj => hv j (by simp [hj])) h
      exact ⟨part, hp, fun hV' => hV (hV'.imp_right fun h j hj => h j (by simp [hj])), hs⟩

theorem afterChoice_sends {s : State} {k : Nat} (h : SendsOk s k) : SendsOk (afterChoice s) k := by
  simpa [SendsOk] using h

/-- The scan with no unregistered bit and every send ok: every hit recorded and sent once, in some order (42 R142). -/
theorem switchScan_ok {c p : Snapshot} {s : State} (hV : s.tables.MasksValid)
    (hu : unregistered s (changedWord s.tables c p) = 0#24)
    (h : SendsOk s (hits s (changedWord s.tables c p)).length) :
    ∃ order t, order.Perm (hits s (changedWord s.tables c p)) ∧ SameButBits s t ∧
       t.swLast = s.swLast ∧ t.rotVal = s.rotVal ∧ t.replies = s.replies ∧
       switchScan c p s = .on (recordAll (fun i => !s.swLast[i]) order t) := by
  generalize hw : changedWord s.tables c p = w at *
  by_cases h0 : w = 0#24
  · refine ⟨[], s, ?_, rfl, rfl, rfl, rfl, ?_⟩
    · have : hits s w = [] := by
        rw [hits, List.filter_eq_nil_iff]; intro i _; subst h0; simp [meets]
      rw [this]
    · simp [switchScan, hw, h0, recordAll]
  · have hperm : ((arrange (nextChoice s) (configured s)).filter fun i => meets (afterChoice s).tables.bit[i] w).Perm (hits s w) := by
      rw [afterChoice_tables]; exact (arrange_perm _ _).filter _
    obtain ⟨part, -, hpart, hs⟩ := scanLoop_ok (w := w) (v := fun i => !s.swLast[i]) (l := arrange (nextChoice s) (configured s)) (s := afterChoice s)
      (nodup_arrange (nodup_configured s)) (by simp) (by rw [hperm.length_eq]; exact afterChoice_sends h)
    have hp := hpart (.inl (by simpa using hV))
    refine ⟨part, afterChoice s, by rw [hp]; exact hperm, ?_, by simp, by simp, by simp, ?_⟩
    · unfold afterChoice; split <;> rfl
    · unfold switchScan; simp only [hw]; rw [if_neg h0, if_pos hu, hs]

theorem emit_sentOk1 {s : State} (h : SendsOk s 1) (name : CmdName) (a : Action) :
   emit name a s = .on (sentOk s name a) := emit_sentOk (k := 0) h name a

/-- Step 3, its send ok (43 R163). -/
theorem leaveStart_ok {s : State} {k} (h : SendsOk s (k+1)) :
   ∃ t, leaveStart s = .on t ∧ t = { s with
      out := s.out ++ (if s.rotVal = rotStart s.tables then [⟨s.startCmd, 0⟩] else []),
      replies := s.replies.drop (if s.rotVal = rotStart s.tables then 1 else 0) } ∧ (SendsOk t k) ∧ (¬ s.rotVal = rotStart s.tables → SendsOk t (k+1)) := by
  unfold leaveStart
  by_cases hr : s.rotVal = rotStart s.tables
  · rw [if_pos hr]
    refine ⟨_, emit_sentOk h _ _, ?_, sendsOk_sentOk h _ _, fun h => absurd hr h⟩
    simp [sentOk, hr, State.sent, State.withReplies]
  · rw [if_neg hr]
    exact ⟨s, rfl, by simp [hr], sendsOk_mono h (by omega), fun _ => h⟩

/-- In a valid instance a position's mask has that position's index (10 R26). -/
theorem rotIndex_rot {tb : Tables} (hV : tb.MasksValid) (j : RotIdx) : rotIndex tb tb.rot[j] = some j := by
  cases h : rotIndex tb tb.rot[j] with
  | none => exact absurd rfl (rotIndex_eq_none.1 h j)
  | some k => rw [hV.2.2.2.1 k j (rotIndex_eq_some h)]

/-- The rotary step on a new position, every send ok (43 R167). -/
theorem rotaryStep_move {c : Snapshot} {s : State} {j : RotIdx} (hV : s.tables.MasksValid)
    (hk : rotKey s.tables c = s.tables.rot[j]) (hne : s.tables.rot[j] ≠ s.rotVal) (h : SendsOk s 2) :
    rotaryStep c s = .on { s with rotVal := s.tables.rot[j], out := s.out ++ moveCommands s j, replies := s.replies.drop (moveCommands s j).length } := by
  unfold rotaryStep
  simp only [hk]
  rw [if_neg (by push Not; exact ⟨oneHot_ne_zero (hV.2.2.1 j), hne⟩), rotIndex_rot hV]
  simp only
  obtain ⟨t, ht, hte, hs1, hs2⟩ := leaveStart_ok (k := 1) h
  rw [ht]
  simp only [andThen, takePosition]
  have htt : t.tables = s.tables := by rw [hte]
  rw [emit_sentOk1 (s := t.writeRot s.tables.rot[j]) hs1]
  simp only [enterStart]
  by_cases he : s.tables.rot[j] = rotStart s.tables
  · have hl : ¬ s.rotVal = rotStart s.tables := fun e => hne (he.trans e.symm)
    have h2 : SendsOk (sentOk (t.writeRot s.tables.rot[j]) t.rotCmd t.tables.rotCode[j]) 1 :=
      sendsOk_sentOk (s := t.writeRot s.tables.rot[j]) (hs2 hl) _ _
    rw [if_pos (by simpa [sentOk, htt] using he), emit_sentOk1 h2]
    subst hte
    simp [sentOk, moveCommands, he, hl, State.sent, State.withReplies, State.writeRot]
    clear * -; rcases s.replies with _ | ⟨a, _ | ⟨b, l⟩⟩ <;> rfl
  · rw [if_neg (by simpa [sentOk, htt] using he)]
    subst hte
    have he' : ¬ s.tables.rot[j.val] = rotStart s.tables := he
    have key : s.replies.tail.tail = s.replies.drop 2 := by
      clear * -; rcases s.replies with _ | ⟨a, _ | ⟨b, l⟩⟩ <;> rfl
    by_cases hl : s.rotVal = rotStart s.tables <;> simp [key, sentOk, moveCommands, he', hl, State.sent, State.withReplies, State.writeRot]

theorem switchCommand_congr {s t : State} (h : SameButBits s t) (v) : switchCommand t v = switchCommand s v := by
  rw [h]; rfl

end Sys2Proof.Machine
end

