-- ==== Sys2Proof/Laws/Emissions.lean ====
section
/-! SUPPORT. What a statement sends under the policy `fatal`, whatever the sends are answered: all of a list of commands if it goes on, the commands before the failed one if a send error ends it. Composition, and one lemma per operation. -/

namespace Sys2Proof.Machine

/-- A script of answers: `k` sends ok, the next one not. -/
def okThenErr (k : Nat) (rs : List SendReply) : List SendReply := List.replicate k .ok ++ .err :: rs

/-- A statement run from `s` that tried to send `l`, in order, and reached `f`: it went on and sent all of `l`, or TRANSPORT ended it after the first `m` of them, `m` being the number of ok answers that a script puts before its first err. -/
def Emits (s : State) (l : List Command) (f : Flow) : Prop :=
  match f with
  | .on t => t.tables = s.tables ∧ t.out = s.out ++ l ∧
      ∀ k rs, s.replies = okThenErr k rs → l.length ≤ k ∧ t.replies = okThenErr (k - l.length) rs
  | .dead t => t.phase = .fatal ∧ t.faultCode = .transport ∧
      ∃ m, m < l.length ∧ t.out = s.out ++ l.take m ∧ ∀ k rs, s.replies = okThenErr k rs → m = k

theorem emits_nil (s : State) : Emits s [] (.on s) := ⟨rfl, by simp, fun k rs h => ⟨Nat.zero_le k, h⟩⟩

/-- Composition: what the second statement sends comes after what the first sends. -/
theorem Emits.andThen {s : State} {l m : List Command} {f : Flow} {g : State → Flow} (h : Emits s l f)
    (hg : ∀ t, f = .on t → Emits t m (g t)) : Emits s (l ++ m) (andThen f g) := by
  cases f with
  | dead t =>
    obtain ⟨h1, h2, k, hk, h3, h4⟩ := h
    exact ⟨h1, h2, k, by simp; omega, by rw [List.take_append_of_le_length (Nat.le_of_lt hk)]; exact h3, h4⟩
  | on t =>
    obtain ⟨h1, h2, h3⟩ := h
    have hu := hg t rfl
    simp only [Machine.andThen]
    cases hf : g t with
    | on u =>
      rw [hf] at hu
      obtain ⟨k1, k2, k3⟩ := hu
      refine ⟨k1.trans h1, by rw [k2, h2, List.append_assoc], fun k rs hk => ?_⟩
      obtain ⟨a, b⟩ := h3 k rs hk
      obtain ⟨c, d⟩ := k3 _ _ b
      exact ⟨by simp; omega, by rw [d, List.length_append, Nat.sub_sub]⟩
    | dead u =>
      rw [hf] at hu
      obtain ⟨k1, k2, n, hn, k3, k4⟩ := hu
      refine ⟨k1, k2, l.length + n, by simp; omega, by rw [k3, h2, List.take_length_add_append, List.append_assoc], fun k rs hk => ?_⟩
      obtain ⟨a, b⟩ := h3 k rs hk
      have := k4 _ _ b
      omega

/-- A statement that follows bookkeeping which sends nothing. -/
theorem Emits.after {s t : State} {l : List Command} {f : Flow} (h : Emits t l f) (ht : t.tables = s.tables)
    (ho : t.out = s.out) (hr : t.replies = s.replies) : Emits s l f := by
  cases f with
  | on u => obtain ⟨h1, h2, h3⟩ := h; exact ⟨h1.trans ht, by rw [h2, ho], by rw [← hr]; exact h3⟩
  | dead u =>
    obtain ⟨h1, h2, m, hm, h3, h4⟩ := h
    exact ⟨h1, h2, m, hm, by rw [h3, ho], by rw [← hr]; exact h4⟩

/-- `emit` (44 R180, R184). -/
theorem emits_emit {s : State} (hp : s.tables.sendErrPolicy = .fatal) (name : CmdName) (a : Action) :
    Emits s [⟨name, a⟩] (emit name a s) := by
  cases hr : s.replies with
  | cons r rs =>
    cases r with
    | ok =>
      rw [emit_ok hr]
      refine ⟨rfl, rfl, fun k qs hk => ?_⟩
      cases k with
      | zero => simp [hr, okThenErr] at hk
      | succ k =>
        simp only [hr, okThenErr, List.replicate_succ, List.cons_append, List.cons.injEq, true_and] at hk
        exact ⟨by simp, hk⟩
    | err =>
      rw [emit_err hr, sendError, show (s.withReplies rs).tables.sendErrPolicy = .fatal from hp]
      refine ⟨rfl, rfl, 0, by simp, by simp, fun k qs hk => ?_⟩
      cases k with
      | zero => rfl
      | succ k => simp [hr, okThenErr, List.replicate_succ] at hk
  | nil =>
    have hno : ∀ k qs, s.replies ≠ okThenErr k qs := fun k qs hk => by simp [hr, okThenErr] at hk
    have ha : afterReply s = s.ticked 1 := by simp [afterReply, hr]
    unfold emit
    split
    · rw [ha]; exact ⟨rfl, rfl, fun k qs hk => absurd hk (hno k qs)⟩
    · rw [ha, sendError, show (s.ticked 1).tables.sendErrPolicy = .fatal from hp]
      exact ⟨rfl, rfl, 0, by simp, by simp, fun k qs hk => absurd hk (hno k qs)⟩

theorem SameConfig.switchCommand {s t : State} (h : SameConfig s t) : switchCommand t = switchCommand s := by
  funext v i; unfold Machine.switchCommand; rw [h.2.1]

/-- The switch pass (41 R123). -/
theorem emits_initLoop {c : Snapshot} {l : List SwIdx} {s : State} (hp : s.tables.sendErrPolicy = .fatal)
    (hl : ∀ i ∈ l, s.swValid[i] = true) : Emits s (l.map (stateCommand s c)) (forEach (initSwitch c) l s) := by
  induction l generalizing s with
  | nil => exact emits_nil s
  | cons i l ih =>
    have h1 : Emits s [stateCommand s c i] (initSwitch c i s) :=
      Emits.after (emits_emit (s := s.writeLast i (switchState s.tables c i)) hp _ _) rfl rfl rfl
    refine Emits.andThen (l := [stateCommand s c i]) h1 fun t ht => ?_
    have hs : Sound (fun _ => True) s (initSwitch c i s) := sound_initSwitch (hl i (by simp)) fun _ => trivial
    rw [ht] at hs
    have hc := (sound_on.1 hs).config
    have htt := (sound_on.1 hs).tables
    have := ih (s := t) (by rw [htt]; exact hp) (fun j hj => by rw [hc.1]; exact hl j (by simp [hj]))
    rwa [show stateCommand t c = stateCommand s c by funext j; unfold stateCommand; rw [hc.switchCommand, htt]] at this

/-- The scan's loop where its early exit leaves nothing out (42 R142, R143). -/
theorem emits_scanLoop {w : Snapshot} {l : List SwIdx} {s : State} (hp : s.tables.sendErrPolicy = .fatal) (hn : l.Nodup)
    (hl : ∀ i ∈ l, s.swValid[i] = true) (hw : s.tables.MasksValid ∨ ∀ i ∈ l, s.tables.bit[i] ≠ w) :
    Emits s ((l.filter fun i => meets s.tables.bit[i] w).map (flipCommand s)) (scanLoop w l s) := by
  induction l generalizing s with
  | nil => exact emits_nil s
  | cons i l ih =>
    obtain ⟨hil, hn⟩ := List.nodup_cons.1 hn
    have hw' : s.tables.MasksValid ∨ ∀ i ∈ l, s.tables.bit[i] ≠ w := hw.imp_right fun h j hj => h j (by simp [hj])
    have hl' : ∀ j ∈ l, s.swValid[j] = true := fun j hj => hl j (by simp [hj])
    simp only [scanLoop, List.filter_cons]
    split
    · have h1 : Emits s [flipCommand s i] (flipAndEmit i s) :=
        Emits.after (emits_emit (s := s.writeLast i (!s.swLast[i])) hp _ _) rfl rfl rfl
      refine Emits.andThen (l := [flipCommand s i]) h1 fun t ht => ?_
      have hs : Sound (fun _ => True) s (flipAndEmit i s) := sound_flipAndEmit (hl i (by simp)) fun _ => trivial
      rw [ht] at hs
      have hc := (sound_on.1 hs).config
      have htt := (sound_on.1 hs).tables
      rw [htt]
      split
      · rename_i he
        have hV := hw.resolve_right fun h => h i (by simp) he
        rw [List.filter_eq_nil_iff.2 fun j hj hm => hil (by rw [← he] at hm; rwa [← bit_meets_bit hV hm])]
        exact emits_nil t
      · have := ih (s := t) (by rw [htt]; exact hp) hn (fun j hj => by rw [hc.1]; exact hl' j hj) (by rw [htt]; exact hw')
        rw [htt] at this
        rwa [List.map_congr_left (g := flipCommand s) fun j hj => ?_] at this
        have hji : j ≠ i := fun e => hil (e ▸ (List.mem_filter.1 hj).1)
        simp only [flipCommand, switchCommand, hc.2.1, (emit_on ht).1, getElem_writeLast, if_neg hji]
    · exact ih hp hn hl' hw'

/-- The scan with no unregistered bit: the hits' flips, in some order (42 R142). -/
theorem emits_switchScan {c p : Snapshot} {s : State} (hp : s.tables.sendErrPolicy = .fatal) (hV : s.tables.MasksValid)
    (hu : unregistered s (changedWord s.tables c p) = 0#24) :
    ∃ order : List SwIdx, order.Perm (hits s (changedWord s.tables c p)) ∧ Emits s (order.map (flipCommand s)) (switchScan c p s) := by
  generalize hw : changedWord s.tables c p = w at *
  by_cases h0 : w = 0#24
  · have : hits s w = [] := by rw [hits, List.filter_eq_nil_iff]; intro i _; subst h0; simp [meets]
    exact ⟨[], by rw [this], by unfold switchScan; simp only [hw]; rw [if_pos h0]; exact emits_nil s⟩
  · refine ⟨(arrange (nextChoice s) (configured s)).filter fun i => meets s.tables.bit[i] w, (arrange_perm _ _).filter _, ?_⟩
    have h1 := emits_scanLoop (w := w) (s := afterChoice s) (l := arrange (nextChoice s) (configured s)) (by simpa using hp)
      (nodup_arrange (nodup_configured s)) (fun i hi => by simpa using mem_configured.1 (mem_arrange.1 hi)) (.inl (by simpa using hV))
    rw [afterChoice_tables] at h1
    have h2 : flipCommand (afterChoice s) = flipCommand s := by
      funext i; simp [flipCommand, switchCommand]
    unfold switchScan; simp only [hw]
    rw [if_neg h0, if_pos hu, ← h2]
    exact Emits.after h1 (by simp) (by simp) (by simp)

/-- The rotary step on a new position (43 R167). -/
theorem emits_rotaryStep {c : Snapshot} {s : State} {j : RotIdx} (hp : s.tables.sendErrPolicy = .fatal) (hV : s.tables.MasksValid)
    (hk : rotKey s.tables c = s.tables.rot[j]) (hne : s.tables.rot[j] ≠ s.rotVal) :
    Emits s (moveCommands s j) (rotaryStep c s) := by
  have hl : Emits s (if s.rotVal = rotStart s.tables then [⟨s.startCmd, 0⟩] else []) (leaveStart s) := by
    unfold leaveStart
    split
    · exact emits_emit hp _ _
    · exact emits_nil s
  have hls : Sound (fun _ => True) s (leaveStart s) := sound_leaveStart fun _ => trivial
  unfold rotaryStep
  simp only [hk]
  rw [if_neg (by push Not; exact ⟨oneHot_ne_zero (hV.2.2.1 j), hne⟩), rotIndex_rot hV]
  unfold moveCommands
  have h2 := hl.andThen (m := [⟨s.rotCmd, s.tables.rotCode[j]⟩]) (g := takePosition s.tables.rot[j] j) fun t ht => by
    rw [ht] at hls
    have hc := (sound_on.1 hls).config
    have htt := (sound_on.1 hls).tables
    rw [← hc.2.2.2.1, ← htt]
    exact Emits.after (t := t.writeRot _) (emits_emit (s := t.writeRot _) (by rw [State.writeRot_tables, htt]; exact hp) _ _) rfl rfl rfl
  have h2s : Sound (fun _ => True) s (andThen (leaveStart s) (takePosition s.tables.rot[j] j)) := by
    refine hls.andThen fun t ht => ?_
    have ww := went_writeRot t s.tables.rot[j]
    exact Sound.after ww (sound_emit (went_emittable ww (emittable_rotary t j)) fun _ => trivial)
  refine h2.andThen fun t ht => ?_
  rw [ht] at h2s
  have hc := (sound_on.1 h2s).config
  have htt := (sound_on.1 h2s).tables
  unfold enterStart
  rw [htt, ← hc.2.2.2.2.2.1]
  split
  · exact emits_emit (by rw [htt]; exact hp) _ _
  · exact emits_nil t

/-- The rotary pass with a position asserted (41 R124). -/
theorem emits_initRotary {c : Snapshot} {s : State} (hp : s.tables.sendErrPolicy = .fatal) (hj : assertedRot s.tables c ≠ []) :
    ∃ j ∈ assertedRot s.tables c, Emits s [⟨s.rotCmd, s.tables.rotCode[j]⟩] (initRotary c s) := by
  cases h : assertedRot s.tables c with
  | nil => exact absurd h hj
  | cons j0 js =>
    refine ⟨chooseFrom (nextChoice s) j0 js, chooseFrom_mem _ _ _, ?_⟩
    unfold initRotary
    rw [h]
    exact Emits.after (t := (afterChoice s).writeRot s.tables.rot[chooseFrom (nextChoice s) j0 js])
      (emits_emit (by simpa using hp) _ _) (by simp) (by simp) (by simp)

theorem mem_assertedRot {tb : Tables} {c : Snapshot} {j : RotIdx} : j ∈ assertedRot tb c ↔ c &&& tb.rot[j] ≠ 0#24 := by
  simp [assertedRot, meets, BitVec.and_comm]

end Sys2Proof.Machine
end

