-- ==== Sys2Proof/Laws/Exec.lean ====
section
/-! SUPPORT. When each meaning answers a next state and which: inversion lemmas for the configuration operations, BUILD, FRAME.PROC and the output kinds. -/

namespace Sys2Proof.Machine

/-- How an output kind's emission ends: it goes on writing only `out`, or in a fatal error (44 R180, R184). -/
theorem output_cases {C : FaultCode → Prop} {s t : State} {name a} (he : Emittable s ⟨name, a⟩) (hC : s.tables.sendErrPolicy = .fatal → C .transport)
   (h : t = flowState (emit name a s)) : Kept s t ∧ ((t.phase = s.phase ∧ t.faultCode = s.faultCode ∧ t.cur = s.cur ∧ t.prev = s.prev ∧ t.swLast = s.swLast ∧ t.rotVal = s.rotVal) ∨ (t.phase = .fatal ∧ C t.faultCode)) := by
  have h1 : Sound C s (emit name a s) := sound_emit he hC
  cases hf : emit name a s with
  | on u => rw [hf] at h1 h; subst h; obtain ⟨h2, h3, h4, h5, h6⟩ := sound_on.1 h1; exact ⟨h2, .inl ⟨h3, h4, h5, h6, emit_on hf⟩⟩
  | dead u => rw [hf] at h1 h; subst h; exact ⟨h1.1, .inr h1.2⟩

/-- When SWCMD answers (44 R181). -/
theorem swcmd_next {s t : State} {name v} (h : execSwcmd name v s = .next t) :
   (s.phase = .ready ∨ s.phase = .run) ∧ Emittable s ⟨name, bitAction v⟩ ∧ t = flowState (emit name (bitAction v) s) := by
  unfold execSwcmd at h
  split at h
  · split at h
    · rename_i hp ha
      simp only [Host.Outcome.next.injEq] at h
      simp only [List.any_eq_true, decide_eq_true_eq] at ha
      obtain ⟨i, hi, rfl⟩ := ha
      exact ⟨hp, emittable_switch (mem_configured.1 hi), h.symm⟩
    · simp at h
  · simp at h

/-- When ROTCMD answers (44 R182). -/
theorem rotcmd_next {s t : State} {name a} (h : execRotcmd name a s = .next t) :
   (s.phase = .ready ∨ s.phase = .run) ∧ Emittable s ⟨name, a⟩ ∧ t = flowState (emit name a s) := by
  unfold execRotcmd at h
  split at h
  · split at h
    · rename_i hp ha
      simp only [Host.Outcome.next.injEq] at h
      simp only [List.any_eq_true, decide_eq_true_eq] at ha
      obtain ⟨rfl, j, -, rfl⟩ := ha
      exact ⟨hp, emittable_rotary s j, h.symm⟩
    · simp at h
  · simp at h

/-- When STARTCMD answers (44 R183). -/
theorem startcmd_next {s t : State} {name v} (h : execStartcmd name v s = .next t) :
   s.phase = .run ∧ Emittable s ⟨name, bitAction v⟩ ∧ t = flowState (emit name (bitAction v) s) := by
  unfold execStartcmd at h
  split at h
  · split at h
    · rename_i hp ha
      simp only [Host.Outcome.next.injEq] at h
      subst ha
      exact ⟨hp, emittable_starter s v, h.symm⟩
    · simp at h
  · simp at h

/-- A configuration operation answers in CONFIG only (40 R100). -/
theorem inConfig_next {m s t u} (h : inConfig m s t = .next u) : s.phase = .config ∧ u = t := by
  unfold inConfig at h; split at h
  · simp at h; exact ⟨‹_›, h.symm⟩
  · simp at h

/-- The three ends of BUILD, in the order of its checks (40 R106, 60 R210). -/
theorem buildState_cases (s : State) :
   (boundCount s < 13 ∧ buildState s = raiseFatal .cfgTooFew s) ∨
   (13 ≤ boundCount s ∧ (s.rotCmdValid = false ∨ s.startCmdValid = false) ∧ buildState s = raiseFatal .cfgMissing s) ∨
   (13 ≤ boundCount s ∧ s.rotCmdValid = true ∧ s.startCmdValid = true ∧ buildState s = { s with swLast := Vector.replicate 15 false, rotVal := 0#24, phase := .ready }) := by
  unfold buildState minBound
  split
  · exact .inl ⟨‹_›, rfl⟩
  · split
    · exact .inr (.inl ⟨by omega, ‹_›, rfl⟩)
    · rename_i h; push Not at h; simp at h
      exact .inr (.inr ⟨by omega, h.1, h.2, rfl⟩)

/-- Everything an instruction can answer in phase CONFIG (10 R29, 40). -/
theorem config_next {i : Instr} {s t : State} (hp : s.phase = .config) (h : exec i s = .next t) :
    (∃ idx name j, i = .cfgsw idx name ∧ tableIndex idx = some j ∧ t = s.bindSwitch j name) ∨
    (∃ idx name, i = .cfgsw idx name ∧ tableIndex idx = none ∧ t = raiseFatal .cfgBadName s) ∨
    (∃ name, i = .cfgrot name ∧ t = { s with rotCmd := name, rotCmdValid := true }) ∨
    (∃ name, i = .cfgstart name ∧ t = { s with startCmd := name, startCmdValid := true }) ∨
    (∃ name, i = .cfggrt name ∧ t = { s with gearRetarget := name, gearRetargetValid := true }) ∨
    (∃ name, i = .cfggpr name ∧ t = { s with gearPrimer := name, gearPrimerValid := true }) ∨
    (i = .build ∧ t = buildState s) := by
  cases i with
  | cfgsw idx name =>
    obtain ⟨-, ht⟩ := inConfig_next h
    cases hi : tableIndex idx with
    | some j => rw [hi] at ht; exact .inl ⟨idx, name, j, rfl, hi, ht⟩
    | none => rw [hi] at ht; exact .inr (.inl ⟨idx, name, rfl, hi, ht⟩)
  | cfgrot name => have := (inConfig_next h).2; simp_all
  | cfgstart name => have := (inConfig_next h).2; simp_all
  | cfggrt name => have := (inConfig_next h).2; simp_all
  | cfggpr name => have := (inConfig_next h).2; simp_all
  | build => have := (inConfig_next h).2; simp_all
  | frame n b0 b1 b2 b3 => rcases execFrame_next (b3 := b3) h with ⟨-, h, -⟩ | ⟨-, h, -⟩ | ⟨-, h, -⟩ <;> simp_all
  | swcmd name v => have := (swcmd_next h).1; simp_all
  | rotcmd name v => have := (rotcmd_next h).1; simp_all
  | startcmd name v => have := (startcmd_next h).1; simp_all

/-- The code a fatal error of FRAME.PROC carries, with its condition on the state the frame met (60 R201). -/
def procC (c : Snapshot) (s : State) (k : FaultCode) : Prop :=
  match k with
  | .transport => s.tables.sendErrPolicy = .fatal
  | .unregisteredBit => unregistered s (changedWord s.tables c s.prev) ≠ 0#24
  | .rotaryKey => rotKey s.tables c ≠ 0#24 ∧ rotKey s.tables c ≠ s.rotVal ∧ ∀ j : RotIdx, rotKey s.tables c ≠ s.tables.rot[j]
  | _ => False

/-- FRAME.PROC keeps the configuration and extends `out`; it stays in its phase at the snapshot, or ends in FATAL with a code and its cause (41 R127). -/
theorem frameProc_kept (c : Snapshot) (s : State) :
    Kept s (flowState (frameProc c s)) ∧
    (((flowState (frameProc c s)).phase = s.phase ∧ (flowState (frameProc c s)).faultCode = s.faultCode ∧
        (flowState (frameProc c s)).cur = c ∧ (flowState (frameProc c s)).prev = c) ∨
      ((flowState (frameProc c s)).phase = .fatal ∧ procC c s (flowState (frameProc c s)).faultCode)) := by
  have h : Sound (procC c s) { s with cur := c } (process c s.prev { s with cur := c }) := by
    refine sound_process (fun h => h) (fun h => h) ?_
    rintro v ⟨t, ht, rfl⟩ h1 h2 h3
    rw [switchScan_rotVal ht] at h2
    exact ⟨h1, h2, fun j => (h3 j).symm⟩
  rcases frameProc_cases c s with ⟨u, hu, ht⟩ | ⟨u, hu, ht⟩ <;> rw [hu] at h <;> rw [ht]
  · obtain ⟨hk, h1, h2, h3, h4⟩ := sound_on.1 h
    have := (kept_cur s c).trans hk
    exact ⟨⟨this.config, this.tables, this.input, this.sent⟩, .inl ⟨h1, h2, h3, h3⟩⟩
  · obtain ⟨hk, h1, h2⟩ := sound_dead.1 h
    exact ⟨(kept_cur s c).trans hk, .inr ⟨h1, h2⟩⟩

end Sys2Proof.Machine
end

