-- ==== Sys2Proof/Laws/PerInstr.lean ====
section
/-! SUPPORT. The family of statements made per instruction: the length of an encoding (30 R77, R83), one lemma per constructor. -/

namespace Sys2Proof.Laws.Encoding

/-- A well-formed instruction's encoding has the length the spec gives its kind, and that is one byte at least and 258 at most. -/
def Statement (i : Instr) : Prop :=
  wellFormed i = true →
    (encode i).length = encodedLength i ∧ 1 ≤ encodedLength i ∧ encodedLength i ≤ 258

theorem cfgsw (idx : Byte) (name : CmdName) : Statement (.cfgsw idx name) := fun h => by
  have := (nameFits_iff name).1 h
  simp [encode, encodedLength]; omega

theorem cfgrot (name : CmdName) : Statement (.cfgrot name) := fun h => by
  have := (nameFits_iff name).1 h
  simp [encode, encodedLength]; omega

theorem cfgstart (name : CmdName) : Statement (.cfgstart name) := fun h => by
  have := (nameFits_iff name).1 h
  simp [encode, encodedLength]; omega

theorem cfggrt (name : CmdName) : Statement (.cfggrt name) := fun h => by
  have := (nameFits_iff name).1 h
  simp [encode, encodedLength]; omega

theorem cfggpr (name : CmdName) : Statement (.cfggpr name) := fun h => by
  have := (nameFits_iff name).1 h
  simp [encode, encodedLength]; omega

theorem build : Statement .build := fun _ => by decide

theorem frame (n b0 b1 b2 b3 : Byte) : Statement (.frame n b0 b1 b2 b3) := fun _ =>
  ⟨rfl, by simp [encodedLength], by simp [encodedLength]⟩

theorem swcmd (name : CmdName) (v : Bool) : Statement (.swcmd name v) := fun h => by
  have := (nameFits_iff name).1 h
  simp [encode, encodeCommand, encodedLength]; omega

theorem rotcmd (name : CmdName) (code : Action) : Statement (.rotcmd name code) := fun h => by
  have := (nameFits_iff name).1 h
  simp [encode, encodeCommand, encodedLength]; omega

theorem startcmd (name : CmdName) (v : Bool) : Statement (.startcmd name v) := fun h => by
  have := (nameFits_iff name).1 h
  simp [encode, encodeCommand, encodedLength]; omega

end Sys2Proof.Laws.Encoding
end

