-- ==== Sys2Proof/Tests/Slice0.lean ====
section
/-! SUPPORT. Tests from the vectors of spec 95 and the worked examples of the rules, the smoke test of WellFormed, and a named witness for the hypotheses of every obligation. All on the reference instance (00 R8). -/

namespace Sys2Proof.Tests

open Sys2Proof.Machine

/-! ### Helpers -/

/-- The names of the test configuration of 95 section 0. -/
def names : Vector CmdName 15 :=
  #v[ascii "battery", ascii "alternator", ascii "avionics", ascii "fuelpump", ascii "deice",
     ascii "pitot", ascii "cowl", ascii "panel", ascii "beacon", ascii "nav", ascii "strobe",
     ascii "taxi", ascii "landing", ascii "gearup", ascii "geardown"]

def magneto : CmdName := ascii "magneto"

def starter : CmdName := ascii "starter"

/-- The longest name that has an encoding. -/
def longName : CmdName := List.replicate 255 0x61#8

/-- Phase CONFIG with the first `k` entries bound and both names declared (95 section 0, before BUILD). -/
def bound (k : Nat) : State :=
  { State.reset with
    swValid := Vector.ofFn fun i => decide (i.val < k)
    swCmd := names
    rotCmdValid := true
    rotCmd := magneto
    startCmdValid := true
    startCmd := starter }

/-- Phase READY after the prologue with `k` entries, the coming sends ok, every order the index order. -/
def ready (k : Nat) : State :=
  { bound k with phase := .ready, replies := List.replicate 20 .ok, choices := [0, 0, 0] }

/-- Phase RUN with `prev` and `cur` at `p`, `rot_val` at `r`, `sw_last` mirroring `p` (10 R36). -/
def running (k : Nat) (p r : Snapshot) : State :=
  { ready k with
    phase := .run
    cur := p
    prev := p
    rotVal := r
    swLast := Vector.ofFn fun i => decide (i.val < k) && switchState referenceTables p i }

/-- The state with the send answers given. -/
def answering (rs : List SendReply) (s : State) : State := { s with replies := rs }

/-- The state with the bytes given presented. -/
def presented (bs : List Byte) (s : State) : State := { s with input := bs }

/-- Any state of phase FATAL. -/
def dead : State := raiseFatal .transport State.reset

/-- A command from its text. -/
def cmd (name : CmdName) (a : Action) : Command := ⟨name, a⟩

/-- What an observer sees of a next state (10 R33). -/
def seen (o : Host.Outcome State Fault Refusal) : Option (Phase × FaultCode × List Command) :=
  match o with
  | .next t => some (observe t)
  | .fault _ => none
  | .refused _ => none

/-- A field of a next state. -/
def field {α : Type} (f : State → α) (o : Host.Outcome State Fault Refusal) : Option α :=
  match o with
  | .next t => some (f t)
  | .fault _ => none
  | .refused _ => none

/-- Why an operation has no step. -/
def refusal (o : Host.Outcome State Fault Refusal) : Option Refusal :=
  match o with
  | .next _ => none
  | .fault _ => none
  | .refused r => some r

/-! ### WellFormed: a term each check refuses (30 R71, R75, R76) -/

theorem test_wellFormed_refuses :
    let tooLong := 0x61#8 :: longName
    wellFormed (.cfgsw 0 tooLong) = false ∧ wellFormed (.cfgrot tooLong) = false ∧
    wellFormed (.cfgstart tooLong) = false ∧ wellFormed (.cfggrt tooLong) = false ∧
    wellFormed (.cfggpr tooLong) = false ∧ wellFormed (.frame 5 0 0 0 0) = false ∧
    wellFormed (.swcmd tooLong true) = false ∧ wellFormed (.rotcmd tooLong 4) = false ∧
    wellFormed (.startcmd tooLong false) = false := by decide +kernel

theorem test_wellFormed_accepts :
    wellFormed (.cfgsw 255 longName) = true ∧ wellFormed (.cfgrot []) = true ∧
    wellFormed (.frame 4 0 0 0 0) = true ∧ wellFormed .build = true := by decide +kernel

/-! ### Decode: words written out from 30 R70, R72 to R77 and 95 -/

/-- 30 R70, R72; CV1, CV3, CV4: the index byte is not checked by the decoder, and a name may be empty. -/
theorem test_decode_cfgsw :
    decode [0b00000000, 0x0F, 0x01, 0x78] = .ok (.cfgsw 15 [0x78], []) ∧
    decode [0b00000000, 0xFF, 0x00, 0x05] = .ok (.cfgsw 255 [], [0x05]) := by decide

theorem test_decode_cfgrot : decode [0b00000001, 0x02, 0x6D, 0x61] = .ok (.cfgrot [0x6D, 0x61], []) := by decide

theorem test_decode_cfgstart : decode [0b00000010, 0x01, 0x73] = .ok (.cfgstart [0x73], []) := by decide

/-- CV12. -/
theorem test_decode_cfggrt : decode [0b00000011, 0x04, 0x67, 0x65, 0x61, 0x72] = .ok (.cfggrt (ascii "gear"), []) := by decide

/-- CV12. -/
theorem test_decode_cfggpr :
    decode [0b00000100, 0x06, 0x70, 0x72, 0x69, 0x6D, 0x65, 0x72] = .ok (.cfggpr (ascii "primer"), []) := by decide

theorem test_decode_build : decode [0b00000101, 0x06] = .ok (.build, [0x06]) := by decide

/-- FV2, FV5. -/
theorem test_decode_frame :
    decode [0b00000110, 0x04, 0x12, 0x34, 0x56, 0x78] = .ok (.frame 4 0x12 0x34 0x56 0x78, []) ∧
    decode [0b00000110, 0x02, 0xFF, 0xFF, 0x00, 0x00] = .ok (.frame 2 0xFF 0xFF 0 0, []) := by decide

/-- FV8, FV9, FV10 and a record cut short. -/
theorem test_decode_refuses :
    decode [0x06, 0x05, 0x00, 0x00, 0x00, 0x00] = .error .reservedCount ∧
    decode [0x07] = .error .reservedHeader ∧
    decode [0x0E, 0x04, 0x00, 0x00, 0x00, 0x00] = .error .reservedHeader ∧
    decode [0x01, 0x02, 0x6D] = .error .truncated ∧ decode [] = .error .noRecord := by decide

/-- EV1, EV2, EV3: the three output kinds, 00101100 the comma and 00001010 the newline. -/
theorem test_decode_output :
    decodeOut .switch (ascii "battery" ++ [0b00101100, 0b00110001, 0b00001010]) = some (.swcmd (ascii "battery") true) ∧
    decodeOut .rotary (magneto ++ [0b00101100, 0b00110100, 0b00001010]) = some (.rotcmd magneto 4) ∧
    decodeOut .starter (starter ++ [0b00101100, 0b00110000, 0b00001010]) = some (.startcmd starter false) ∧
    decodeOut .starter (starter ++ [0b00101100, 0b00110010, 0b00001010]) = none := by decide

/-- EV1, EV4, EV5. -/
theorem test_encode_output :
    encode (.swcmd (ascii "battery") true) = [0x62, 0x61, 0x74, 0x74, 0x65, 0x72, 0x79, 0x2C, 0x31, 0x0A] ∧
    encode (.swcmd [] true) = [0x2C, 0x31, 0x0A] ∧
    encode (.swcmd (ascii "a,b") false) = [0x61, 0x2C, 0x62, 0x2C, 0x30, 0x0A] := by decide

/-- The table's numbering: the first byte is bits 7..0; bytes above `nbits` are zero. -/
theorem test_decodeTableWord :
    decodeTableWord 48 0x785634120406 = some (.frame 4 0x12 0x34 0x56 0x78) ∧
    decodeTableWord 8 0x00 = some (.cfgsw 0 []) ∧ decodeTableWord 8 0x07 = none := by decide +kernel

/-- The word placed by `withFetchWord` is the operation the next step runs. -/
theorem test_withFetchWord :
    field (fun t => (t.rotCmdValid, t.input)) (step (State.reset.withFetchWord 8 0x01)) = some (true, []) := by decide +kernel

/-- 30 R81, R82: the notation, and `SNAP` with the byte order of 20 R51. -/
theorem test_text :
    render (snap 0x00A0B1) = "FRAME 4, 00 A0 B1 00".toList ∧
    render (.rotcmd magneto 4) = "\"magneto,4\\n\"".toList ∧
    resolveName referenceTables (ascii "GEARUP") = some 13 := by decide

/-! ### The instructions, one step each -/

/-- 00 R8: the reference instance meets 00 R7, and its masks are those the spec prints. -/
theorem test_reference :
    referenceTables.Valid ∧ swgMask referenceTables = 0xFF1F0C ∧ rotMask referenceTables = 0x00E003 := by decide

/-- 00 R7 (a): two entries of one name are no instance, nor are two entries of one mask. -/
theorem test_reference_constraints :
    ¬ ({ referenceTables with tabName := referenceTables.tabName.set 1 (ascii "BATTERY") } : Tables).Valid ∧
    ¬ ({ referenceTables with bit := referenceTables.bit.set 1 0x010000 } : Tables).Valid := by decide

/-- CV2: binding again replaces the name and adds no entry. -/
theorem test_cfgsw_rebinds :
    field (fun t => (t.swCmd[0], boundCount t, t.phase)) (exec (.cfgsw 0 (ascii "bat")) (bound 1)) =
      some (ascii "bat", 1, .config) := by decide

/-- CV3: the first index that is no entry. -/
theorem test_cfgsw_badName :
    seen (exec (.cfgsw 15 (ascii "x")) State.reset) = some (.fatal, .cfgBadName, []) := by decide

/-- 40 R102: declaring again replaces the name. -/
theorem test_cfgrot : field (fun t => (t.rotCmd, t.startCmd)) (exec (.cfgrot (ascii "m")) (bound 0)) =
    some (ascii "m", starter) := by decide

/-- 40 R103. -/
theorem test_cfgstart : field (fun t => (t.rotCmd, t.startCmd)) (exec (.cfgstart (ascii "s")) (bound 0)) =
    some (magneto, ascii "s") := by decide

/-- CV12. -/
theorem test_cfggrt : field (fun t => (t.gearRetarget, t.gearPrimerValid)) (exec (.cfggrt (ascii "gear")) State.reset) =
    some (ascii "gear", false) := by decide

/-- CV12. -/
theorem test_cfggpr : field (fun t => (t.gearPrimer, t.gearRetargetValid)) (exec (.cfggpr (ascii "primer")) State.reset) =
    some (ascii "primer", false) := by decide

/-- CV5, CV8: twelve entries are too few, and that is checked first. -/
theorem test_build_tooFew :
    seen (exec .build (bound 12)) = some (.fatal, .cfgTooFew, []) ∧
    seen (exec .build { bound 12 with rotCmdValid := false }) = some (.fatal, .cfgTooFew, []) := by decide

/-- CV6, CV7. -/
theorem test_build_thirteen :
    seen (exec .build (bound 13)) = some (.ready, .noFault, []) ∧
    seen (exec .build { bound 15 with startCmdValid := false }) = some (.fatal, .cfgMissing, []) := by decide

/-- IV7 on its rotary pass: with two positions asserted the choice decides, and the action is the code's. -/
theorem test_frame_init :
    field (fun t => (t.out.drop 13, t.rotVal, t.prev, t.phase))
        (exec (.frame 3 0x00 0x60 0x00 0xFF) { ready 13 with choices := [0, 1] }) =
      some ([cmd magneto 1], 0x004000, 0x006000, .run) := by decide

/-- MV2: the switch first, then the starter, then the position (S3). -/
theorem test_frame_proc :
    field (fun t => (t.out, t.rotVal, t.swLast[0])) (exec (.frame 4 0x00 0x20 0x00 0x00) (running 15 0x010002 0x000002)) =
      some ([cmd (ascii "battery") 0, cmd starter 0, cmd magneto 0], 0x002000, false) := by decide

/-- SV1's one command and XV1's one send error. -/
theorem test_swcmd :
    seen (exec (.swcmd (ascii "battery") true) (running 15 0 0)) = some (.run, .noFault, [cmd (ascii "battery") 1]) ∧
    seen (exec (.swcmd (ascii "battery") true) (answering [.err] (running 15 0 0))) = some (.fatal, .transport, []) := by
  decide

/-- 44 R182; codes come from the position table only. -/
theorem test_rotcmd :
    seen (exec (.rotcmd magneto 4) (ready 13)) = some (.ready, .noFault, [cmd magneto 4]) ∧
    refusal (exec (.rotcmd starter 4) (ready 13)) = some (.neverEmitted "ROTCMD") := by decide

/-- 44 R183; no starter command before phase RUN. -/
theorem test_startcmd :
    seen (exec (.startcmd starter true) (running 13 0 0)) = some (.run, .noFault, [cmd starter 1]) ∧
    refusal (exec (.startcmd starter true) (ready 13)) = some (.notAccepted "STARTCMD" .ready) := by decide

/-! ### Witnesses: the hypotheses of each obligation can be met, at the ends of their ranges -/

theorem witness_RecordRoundTrip :
    wellFormed (.cfgsw 255 longName) = true ∧ (Instr.cfgsw 255 longName).isOutput = false ∧
    wellFormed (.frame 4 0 0 0 0) = true ∧ (Instr.frame 4 0 0 0 0).isOutput = false := by decide +kernel

theorem witness_DatagramRoundTrip :
    wellFormed (.rotcmd longName 4) = true ∧ outKind (.rotcmd longName 4) = some .rotary ∧
    wellFormed (.swcmd [] true) = true ∧ outKind (.swcmd [] true) = some .switch ∧
    wellFormed (.startcmd [] false) = true ∧ outKind (.startcmd [] false) = some .starter := by decide +kernel

theorem witness_DecodedRecordIsCanonical : decode [0x05, 0x06] = .ok (.build, [0x06]) := by decide

theorem witness_ReservedRecordsHaveNoStep :
    headerReserved 0x08 ≠ 0 ∧ headerReserved 0xFF ≠ 0 ∧ (presented [0x07] State.reset).input = [0x07] ∧
    (presented [0x06, 0x05, 0, 0, 0, 0] State.reset).input = [0x06, 0x05, 0, 0, 0, 0] ∧ 4 < (0x05 : Byte).toNat ∧
    wellFormed (.cfgrot [0x6D]) = true ∧ (Instr.cfgrot [0x6D]).isOutput = false ∧
    2 < (encode (.cfgrot [0x6D])).length ∧
    (presented [0x01, 0x01] State.reset).input = (encode (.cfgrot [0x6D])).take 2 ∧
    (presented [0x01] State.reset).input = (encode (.cfgrot [0x6D])).take 1 ∧ State.reset.input = [] := by decide

theorem witness_DatagramDeterminesCommand : datagram (cmd (ascii "a,b") 0) = datagram (cmd (ascii "a" ++ [0x2C, 0x62]) 0) := by
  decide

theorem witness_TableNamesResolve : referenceTables.NamesUnique := by decide

theorem witness_StepRunsDecodedOperation :
    decode (presented [0x01, 0x00, 0x05] State.reset).input = .ok (.cfgrot [], [0x05]) := by decide

theorem witness_OnlyResetLeavesFatal : dead.phase = .fatal := rfl

theorem inv_running : Inv (presented [0x06, 0x03, 0x01, 0x40, 0x00, 0x00] (running 13 0x014000 0x004000)) := by
  constructor <;> decide

theorem witness_StepKeepsInvariant :
    Inv (presented [0x06, 0x03, 0x01, 0x40, 0x00, 0x00] (running 13 0x014000 0x004000)) ∧
    ∃ t, step (presented [0x06, 0x03, 0x01, 0x40, 0x00, 0x00] (running 13 0x014000 0x004000)) = .next t :=
  ⟨inv_running, _, rfl⟩

theorem witness_WrongPhaseHasNoStep :
    (ready 13).phase ≠ .config ∧ dead.phase ≠ .config ∧ (State.reset.phase = .config ∧ (4 : Byte).toNat ≤ 4) ∧
    dead.phase = .fatal := by decide

theorem witness_ConfigurationFrozenAfterBuild :
    (ready 13).phase ≠ .config ∧ ∃ t, exec (.frame 2 0xFF 0xFF 0 0) (ready 13) = .next t := ⟨by decide, _, rfl⟩

theorem witness_OnlyEmittableCommandsAreSent :
    ∃ t, exec (.frame 4 0 0 0 0) (ready 13) = .next t ∧ t.out.length = 13 := ⟨_, rfl, by decide⟩

theorem witness_FatalErrorGuarantees :
    ∃ t, exec (.cfgsw 15 []) State.reset = .next t ∧ t.phase = .fatal := ⟨_, rfl, rfl⟩

/-- CV5, CV4, CV7: the codes of the configuration operations. -/
theorem witness_FaultCauses_config :
    seen (exec .build (bound 12)) = some (.fatal, .cfgTooFew, []) ∧
    seen (exec (.cfgsw 255 []) State.reset) = some (.fatal, .cfgBadName, []) ∧
    seen (exec .build { bound 15 with rotCmdValid := false }) = some (.fatal, .cfgMissing, []) := by decide

/-- SV9, RV14, XV1: the codes of FRAME. -/
theorem witness_FaultCauses_frame :
    seen (exec (.frame 4 0x00 0x00 0x04 0x00) (running 13 0 0)) = some (.fatal, .unregisteredBit, []) ∧
    seen (exec (.frame 4 0x00 0x60 0x00 0x00) (running 15 0x004000 0x004000)) = some (.fatal, .rotaryKey, []) ∧
    seen (exec (.frame 4 0x01 0x00 0x00 0x00) (answering [.err] (running 15 0 0))) = some (.fatal, .transport, []) := by
  decide

theorem witness_FrameLeavesTheRest :
    ∃ t, exec (.frame 4 0x01 0x00 0x00 0x00) (running 13 0 0) = .next t ∧ t.phase ≠ .fatal ∧
      (running 13 0 0).swValid[13] = false := ⟨_, rfl, by decide, by decide⟩

theorem witness_GearNamesAreNeverRead :
    forgetGear State.reset = forgetGear { State.reset with gearPrimerValid := true, gearPrimer := ascii "primer" } := by decide

theorem witness_CfgswBinds :
    State.reset.phase = .config ∧ (0 : Byte).toNat = (0 : SwIdx).val ∧ (14 : Byte).toNat = (14 : SwIdx).val ∧
    14 < (15 : Byte).toNat ∧ 14 < (255 : Byte).toNat := by decide

theorem witness_CfgrotSetsRotaryName : State.reset.phase = .config := rfl

theorem witness_CfgstartSetsStarterName : State.reset.phase = .config := rfl

theorem witness_CfggrtStoresName : State.reset.phase = .config := rfl

theorem witness_CfggprStoresName : State.reset.phase = .config := rfl

theorem witness_BuildConstructs :
    (bound 13).phase = .config ∧ boundCount (bound 13) = 13 ∧ (bound 13).rotCmdValid = true ∧
    (bound 13).startCmdValid = true := by decide

theorem witness_BuildChecks :
    ((bound 12).phase = .config ∧ boundCount (bound 12) < 13) ∧
    (State.reset.phase = .config ∧ boundCount State.reset < 13) ∧
    (({ bound 13 with startCmdValid := false } : State).phase = .config ∧
      13 ≤ boundCount { bound 13 with startCmdValid := false } ∧
      ({ bound 13 with startCmdValid := false } : State).startCmdValid = false) := by decide

theorem witness_ShortFrameIsNoOp :
    (ready 13).phase = .ready ∧ (running 13 0 0).phase = .run ∧ (0 : Byte).toNat ≤ 2 ∧ (2 : Byte).toNat ≤ 2 := by decide

theorem witness_FourthByteIsIgnored : ValidCount 3 ∧ ValidCount 4 := by decide

/-- IV1 (no position asserted) and IV7 (two asserted). -/
theorem witness_FirstFrameInitialises :
    (ready 13).phase = .ready ∧ ValidCount 3 ∧ SendsOk (ready 13) (boundCount (ready 13) + 1) ∧
    (∀ j : RotIdx, packSnapshot 0 0 0 &&& (ready 13).tables.rot[j] = 0) ∧
    (∃ j : RotIdx, packSnapshot 0x00 0x60 0x00 &&& (ready 13).tables.rot[j] ≠ 0) := by decide

/-- XV3, the first and the last send of the switch pass, and the rotary command's send. -/
theorem witness_SendErrorStopsInitialisation :
    (ready 13).phase = .ready ∧ ValidCount 4 ∧ (ready 13).tables.sendErrPolicy = .fatal ∧
    (∀ k ∈ [0, 2, 12], k < boundCount (ready 13) ∧
      (answering (List.replicate k .ok ++ [.err]) (ready 13)).replies = List.replicate k .ok ++ .err :: []) ∧
    (13 = boundCount (ready 13) ∧ (∃ j : RotIdx, packSnapshot 0x00 0x40 0x00 &&& (ready 13).tables.rot[j] ≠ 0) ∧
      (answering (List.replicate 13 .ok ++ [.err]) (ready 13)).replies = List.replicate 13 .ok ++ .err :: []) := by decide

/-- XV1 (the scan's send), XV2 (the starter's, after the position's). -/
theorem witness_SendErrorStopsProcessing :
    let s := answering [.err] (running 15 0 0)
    let u := answering [.ok, .err] (running 15 0x004000 0x004000)
    (s.tables.MasksValid ∧ s.phase = .run ∧ ValidCount 4 ∧ s.tables.sendErrPolicy = .fatal ∧
      unregistered s (changedWord s.tables (packSnapshot 0x01 0x00 0x00) s.prev) = 0 ∧
      0 < (hits s (changedWord s.tables (packSnapshot 0x01 0x00 0x00) s.prev)).length ∧
      s.replies = List.replicate 0 .ok ++ .err :: []) ∧
    (unregistered u (changedWord u.tables (packSnapshot 0x00 0x00 0x02) u.prev) = 0 ∧
      rotKey u.tables (packSnapshot 0x00 0x00 0x02) = u.tables.rot[4] ∧
      rotKey u.tables (packSnapshot 0x00 0x00 0x02) ≠ u.rotVal ∧
      1 < (hits u (changedWord u.tables (packSnapshot 0x00 0x00 0x02) u.prev)).length + (moveCommands u 4).length ∧
      u.replies = List.replicate 1 .ok ++ .err :: []) := by decide

/-- XV2's result, an initialisation whose first send fails, and RV15 with the deactivation chosen and its send failing (log 6). -/
theorem witness_FatalOutIsAllowedPrefix :
    (running 15 0 0).tables.sendErrPolicy = .fatal ∧ (running 15 0 0).tables.MasksValid ∧
    seen (exec (.frame 4 0x00 0x00 0x02 0x00) (answering [.ok, .err] (running 15 0x004000 0x004000))) =
      some (.fatal, .transport, [cmd magneto 4]) ∧
    seen (exec (.frame 4 0x00 0x00 0x00 0x00) (answering [.err] (ready 13))) = some (.fatal, .transport, []) ∧
    seen (exec (.frame 4 0x00 0x20 0x02 0x00) { answering [.err] (running 15 0x000002 0x000002) with choices := [1] }) =
      some (.fatal, .transport, []) := by decide

/-- MV1: a switch and a move; the quiet clause and the move clause of the selector. -/
theorem witness_FrameProcessesChanges :
    let s := running 15 0x004000 0x004000
    s.tables.MasksValid ∧ s.phase = .run ∧ ValidCount 4 ∧
    unregistered s (changedWord s.tables (packSnapshot 0x01 0x00 0x02) s.prev) = 0 ∧
    (rotKey s.tables (packSnapshot 0x01 0x00 0x02) = s.tables.rot[4] ∧
      rotKey s.tables (packSnapshot 0x01 0x00 0x02) ≠ s.rotVal) ∧
    rotKey s.tables (packSnapshot 0x01 0x40 0x00) = s.rotVal ∧
    rotKey s.tables (packSnapshot 0x01 0x00 0x00) = 0 ∧
    SendsOk s ((hits s (changedWord s.tables (packSnapshot 0x01 0x00 0x02) s.prev)).length + 2) := by decide

theorem witness_QuietFrameOnlyRemembers :
    let s := running 15 0x002000 0x002000
    s.phase = .run ∧ ValidCount 3 ∧ changedWord s.tables (packSnapshot 0x00 0x20 0xF0) s.prev = 0 ∧
    rotKey s.tables (packSnapshot 0x00 0x20 0xF0) = s.rotVal ∧ rotKey s.tables (packSnapshot 0x00 0x00 0xF0) = 0 := by decide

/-- SV1, and the last entry. -/
theorem witness_SingleBitChangeSendsOneCommand :
    let s := running 15 0 0
    s.tables.MasksValid ∧ s.phase = .run ∧ ValidCount 4 ∧
    (s.swValid[0] = true ∧ packSnapshot 0x01 0x00 0x00 ^^^ s.prev = s.tables.bit[0] ∧
      rotKey s.tables (packSnapshot 0x01 0x00 0x00) = 0) ∧
    (s.swValid[14] = true ∧ packSnapshot 0x00 0x00 0x08 ^^^ s.prev = s.tables.bit[14] ∧
      rotKey s.tables (packSnapshot 0x00 0x00 0x08) = 0) ∧ SendsOk s 1 := by decide

/-- RV3 (entering "start") and RV4 (leaving it). -/
theorem witness_RotaryMoveSendsInOrder :
    let s := running 15 0x004000 0x004000
    let u := running 15 0x000002 0x000002
    (s.tables.MasksValid ∧ s.phase = .run ∧ ValidCount 4 ∧ SendsOk s 2 ∧
      changedWord s.tables (packSnapshot 0x00 0x00 0x02) s.prev = 0 ∧
      rotKey s.tables (packSnapshot 0x00 0x00 0x02) = s.tables.rot[4] ∧ s.tables.rot[4] ≠ s.rotVal) ∧
    (u.phase = .run ∧ SendsOk u 2 ∧ changedWord u.tables (packSnapshot 0x00 0x20 0x00) u.prev = 0 ∧
      rotKey u.tables (packSnapshot 0x00 0x20 0x00) = u.tables.rot[0] ∧ u.tables.rot[0] ≠ u.rotVal) := by decide

/-- SV10. -/
theorem witness_UnregisteredBitIsFatal :
    let s := running 13 0 0
    s.phase = .run ∧ ValidCount 4 ∧
    unregistered s (changedWord s.tables (packSnapshot 0x01 0x00 0x04) s.prev) ≠ 0 ∧
    SendsOk s (hits s (changedWord s.tables (packSnapshot 0x01 0x00 0x04) s.prev)).length := by decide

/-- RV15. -/
theorem witness_SeveralRotaryBitsAreFatal :
    let s := running 15 0x000002 0x000002
    let key := rotKey s.tables (packSnapshot 0x00 0x20 0x02)
    let w := changedWord s.tables (packSnapshot 0x00 0x20 0x02) s.prev
    s.tables.MasksValid ∧ s.phase = .run ∧ ValidCount 4 ∧ unregistered s w = 0 ∧ key ≠ 0 ∧ key ≠ s.rotVal ∧
    (∀ j : RotIdx, key ≠ s.tables.rot[j]) ∧ SendsOk s ((hits s w).length + 1) := by decide

theorem witness_EarlyExitIsUnobservable :
    (running 15 0 0).tables.Valid ∧ ([3, 0, 14] : List SwIdx).Nodup := by decide

/-- RV2. -/
theorem witness_PositionIsNeverForgotten :
    (running 15 0x002000 0x002000).phase = .run ∧ (running 15 0x002000 0x002000).rotVal ≠ 0 ∧
    ∃ t, exec (.frame 4 0 0 0 0) (running 15 0x002000 0x002000) = .next t ∧ t.phase ≠ .fatal :=
  ⟨rfl, by decide, _, rfl, by decide⟩

/-- SV12. -/
theorem witness_RepeatedFrameIsSilent :
    (running 15 0 0).phase = .run ∧ ValidCount 4 ∧
    ∃ t, exec (.frame 4 0x01 0x00 0x00 0x00) (running 15 0 0) = .next t ∧ t.phase = .run :=
  ⟨rfl, by decide, _, rfl, by decide⟩

/-- IV6, SV5: the four unassigned bits. -/
theorem witness_UnassignedBitsHaveNoEffect :
    (ready 13).phase = .ready ∧ (running 15 0 0).phase = .run ∧ ValidCount 4 ∧
    SameMasked (running 15 0 0).tables (running 15 0 0).prev 0x0000F0 ∧
    SameMasked (running 15 0 0).tables (packSnapshot 0x01 0x00 0x00) (packSnapshot 0x01 0x00 0xF0) := by decide

theorem witness_ContinuePolicyKeepsMapperState :
    let s : State := { running 15 0 0 with tables := { referenceTables with sendErrPolicy := .continues } }
    s.tables.sendErrPolicy = .continues ∧ s.phase = .run ∧ ValidCount 4 ∧
    [SendReply.ok].length = [SendReply.err].length := by decide

theorem witness_ChoiceNumbersCoverAll :
    ([2, 0, 1] : List SwIdx).Perm [0, 1, 2] ∧ (4 : RotIdx) ∈ ([0, 4] : List RotIdx) ∧
    (([0, 1, 2] : List SwIdx).Nodup ∧ ([2, 0] : List SwIdx).Nodup ∧ ∀ i ∈ ([2, 0] : List SwIdx), i ∈ ([0, 1, 2] : List SwIdx)) := by
  decide

/-- IV1 and IV7 in the reverse order of the entries. -/
theorem witness_EveryOpenChoiceIsAdmitted_init :
    (ready 13).phase = .ready ∧ ValidCount 4 ∧ SendsOk (ready 13) (boundCount (ready 13) + 1) ∧
    (configured (ready 13)).reverse.Perm (configured (ready 13)) ∧
    (∀ j : RotIdx, packSnapshot 0 0 0 &&& (ready 13).tables.rot[j] = 0) ∧
    packSnapshot 0x00 0x60 0x00 &&& (ready 13).tables.rot[1] ≠ 0 := by decide

/-- SV3 in the reverse order, with a silent key and with a move. -/
theorem witness_EveryOpenChoiceIsAdmitted_scan :
    let s := running 15 0x000002 0x000002
    let w := changedWord s.tables (packSnapshot 0x03 0x00 0x02) s.prev
    s.phase = .run ∧ ValidCount 4 ∧ s.tables.MasksValid ∧ SendsOk s ((hits s w).length + 2) ∧ unregistered s w = 0 ∧
    hits s w = [0, 1] ∧ ([1, 0] : List SwIdx).Perm [0, 1] ∧
    rotKey s.tables (packSnapshot 0x03 0x00 0x02) = s.rotVal ∧
    changedWord s.tables (packSnapshot 0x03 0x20 0x00) s.prev = w ∧
    rotKey s.tables (packSnapshot 0x03 0x20 0x00) = s.tables.rot[0] ∧ s.tables.rot[0] ≠ s.rotVal := by decide

/-- SV3 with a bad key while in "start" (RV15). -/
theorem witness_EveryOpenChoiceIsAdmitted_badKey :
    let s := running 15 0x000002 0x000002
    let key := rotKey s.tables (packSnapshot 0x03 0x20 0x02)
    changedWord s.tables (packSnapshot 0x03 0x20 0x02) s.prev = changedWord s.tables (packSnapshot 0x03 0x00 0x02) s.prev ∧
    key ≠ 0 ∧ key ≠ s.rotVal ∧ (∀ j : RotIdx, key ≠ s.tables.rot[j]) ∧ s.rotVal = rotStart s.tables := by decide

/-- SV10: the part may be all of the hits or none of them. -/
theorem witness_EveryOpenChoiceIsAdmitted_part :
    let u := running 13 0 0
    let w := changedWord u.tables (packSnapshot 0x01 0x00 0x04) u.prev
    u.phase = .run ∧ unregistered u w ≠ 0 ∧ SendsOk u ((hits u w).length + 2) ∧
    (([0] : List SwIdx).Nodup ∧ ∀ i ∈ ([0] : List SwIdx), i ∈ hits u w) := by decide

theorem witness_SwcmdIsSent :
    (ready 13).phase = .ready ∧ (ready 13).swValid[12] = true ∧
    (ready 13).replies = .ok :: List.replicate 19 .ok := by decide

theorem witness_RotcmdIsSent :
    (ready 13).phase = .ready ∧ (ready 13).replies = .ok :: List.replicate 19 .ok := by decide

theorem witness_StartcmdIsSent :
    (running 13 0 0).phase = .run ∧ (running 13 0 0).replies = .ok :: List.replicate 19 .ok := by decide

theorem witness_SendErrorFollowsPolicy :
    ((answering [.err] (ready 13)).replies = .err :: [] ∧ (ready 13).tables.sendErrPolicy = .fatal) ∧
    ({ referenceTables with sendErrPolicy := .continues } : Tables).sendErrPolicy = .continues := by decide

theorem witness_UnemittableOutputsHaveNoStep :
    let oneCode : Tables := { referenceTables with rotCode := Vector.replicate 5 0 }
    (ready 13).phase = .ready ∧ (running 13 0 0).phase = .run ∧ State.reset.phase = .config ∧ dead.phase = .fatal ∧
    (ready 13).phase ≠ .run ∧ State.reset.phase ≠ .run ∧
    (∀ i : SwIdx, (ready 13).swValid[i] = true → (ready 13).swCmd[i] ≠ ascii "gearup") ∧
    ascii "gearup" ≠ (ready 13).rotCmd ∧ ascii "gearup" ≠ (running 13 0 0).startCmd ∧
    (∀ j : RotIdx, ({ ready 13 with tables := oneCode } : State).tables.rotCode[j] ≠ 4) := by decide

end Sys2Proof.Tests
end

section
/-! SUPPORT. Every order of a list, every member and every part in any order has a number (00 R10; logs 3, 6). -/

namespace Sys2Proof.Machine

variable {α : Type}

/-- The number is built from the member's place in the order, digit by digit in the bases `arrange` reads. -/
theorem exists_arrange {l order : List α} (h : order.Perm l) : ∃ k, arrange k l = order := by
  induction l generalizing order with
  | nil => exact ⟨0, by rw [h.eq_nil, arrange]⟩
  | cons a l ih =>
    obtain ⟨n, hn, rfl⟩ := List.getElem_of_mem (h.symm.subset List.mem_cons_self)
    obtain ⟨k, hk⟩ := ih ((List.getElem_cons_eraseIdx_perm hn).trans h).cons_inv
    have hlt : n < l.length + 1 := by simpa [h.length_eq] using hn
    refine ⟨(l.length + 1) * k + n, ?_⟩
    rw [arrange, Nat.mul_add_mod, Nat.mod_eq_of_lt hlt, Nat.mul_add_div (Nat.succ_pos _),
      Nat.div_eq_of_lt hlt, Nat.add_zero, hk]
    exact List.insertIdx_eraseIdx_getElem hn

/-- Every order of the members that pass a test is what some order of the whole list shows of them. -/
theorem exists_arrange_filter {p : α → Bool} {l order : List α} (h : order.Perm (l.filter p)) :
    ∃ k, (arrange k l).filter p = order := by
  obtain ⟨k, hk⟩ := exists_arrange ((h.append_right _).trans (List.filter_append_perm p l))
  have hp : order.filter p = order := List.filter_eq_self.2 fun i hi => (List.mem_filter.1 (h.mem_iff.1 hi)).2
  exact ⟨k, by simp [hk, hp]⟩

theorem exists_chooseFrom {j0 j : α} {js : List α} (h : j ∈ j0 :: js) : ∃ k, chooseFrom k j0 js = j := by
  obtain ⟨k, hk, rfl⟩ := List.getElem_of_mem h
  refine ⟨k, ?_⟩
  rw [chooseFrom, Nat.mod_eq_of_lt (by simpa using hk), List.getD_eq_getElem _ _ hk]

/-- A part is the front of an order that puts the other hits after it. -/
theorem exists_faultingPart {hit part : List SwIdx} (hn : part.Nodup) (hs : part ⊆ hit) :
    ∃ k m, faultingPart k m hit = part := by
  have hsub := hn.subperm hs
  obtain ⟨k, hk⟩ := exists_arrange (List.subperm_append_diff_self_of_count_le (List.subperm_ext_iff.1 hsub))
  have hlt : part.length < hit.length + 1 := Nat.lt_succ_of_le hsub.length_le
  exact ⟨k, part.length, by rw [faultingPart, hk, Nat.mod_eq_of_lt hlt, List.take_left]⟩

end Sys2Proof.Machine
end

section
/-! SUPPORT. Name resolution and the step, each said once. -/

namespace Sys2Proof.Machine

theorem resolveName_eq_some {tb : Tables} {name : CmdName} {i : SwIdx} (h : resolveName tb name = some i) :
    tb.tabName[i] = name := by
  simpa using List.find?_some h

theorem resolveName_eq_none {tb : Tables} {name : CmdName} :
    resolveName tb name = none ↔ ∀ i : SwIdx, tb.tabName[i] ≠ name := by
  simp [resolveName]

/-- Where names are unique an entry's name has that entry's index (30 R81). -/
theorem resolveName_tabName {tb : Tables} (hu : tb.NamesUnique) (i : SwIdx) : resolveName tb tb.tabName[i] = some i := by
  cases h : resolveName tb tb.tabName[i] with
  | none => exact absurd rfl (resolveName_eq_none.1 h i)
  | some k => rw [hu k i (resolveName_eq_some h)]

theorem fetch_eq_ok {s : State} {i : Instr} {rest : List Byte} (h : decode s.input = .ok (i, rest)) :
    fetch s = .ok (i, { s with input := rest }) := by
  rw [fetch, h]

end Sys2Proof.Machine
end

section
/-! SUPPORT. FRAME under a script of choices, its sends ok: which script makes each part of it take a given order or choice. -/

namespace Sys2Proof.Machine

/-! ### The script -/

theorem nextChoice_script {s : State} {k : Nat} {ks : List Nat} (h : s.choices = k :: ks) : nextChoice s = k := by
  rw [nextChoice, h]

theorem afterChoice_script {s : State} {k : Nat} {ks : List Nat} (h : s.choices = k :: ks) :
    afterChoice s = s.withChoices ks := by
  rw [afterChoice, h]

/-- The state after a frame with snapshot `c` has recorded `v` for each entry of `order` and sent it ok, the script then at `ks`. -/
def recorded (c : Snapshot) (v : SwIdx → Bool) (order : List SwIdx) (ks : List Nat) (s : State) : State :=
  recordAll v order ({ s with cur := c }.withChoices ks)

section
variable (c : Snapshot) (v : SwIdx → Bool) (order : List SwIdx) (ks : List Nat) (s : State)

@[simp] theorem recorded_tables : (recorded c v order ks s).tables = s.tables := by rw [recorded, recordAll_eq]; rfl
@[simp] theorem recorded_rotVal : (recorded c v order ks s).rotVal = s.rotVal := by rw [recorded, recordAll_eq]; rfl
@[simp] theorem recorded_rotCmd : (recorded c v order ks s).rotCmd = s.rotCmd := by rw [recorded, recordAll_eq]; rfl
@[simp] theorem recorded_startCmd : (recorded c v order ks s).startCmd = s.startCmd := by
  rw [recorded, recordAll_eq]; rfl
@[simp] theorem recorded_phase : (recorded c v order ks s).phase = s.phase := by rw [recorded, recordAll_eq]; rfl
@[simp] theorem recorded_choices : (recorded c v order ks s).choices = ks := by rw [recorded, recordAll_eq]; rfl
@[simp] theorem recorded_out : (recorded c v order ks s).out = s.out ++ order.map (switchCommand s v) :=
  recordAll_out _ _ _

@[simp] theorem moveCommands_recorded (j : RotIdx) : moveCommands (recorded c v order ks s) j = moveCommands s j := by
  simp [moveCommands]

end

/-- The answers that the entries' sends leave over. -/
theorem sendsOk_recorded {c : Snapshot} {v : SwIdx → Bool} {order : List SwIdx} {ks : List Nat} {s : State} {m : Nat}
    (h : SendsOk s (order.length + m)) : SendsOk (recorded c v order ks s) m := by
  unfold SendsOk
  rw [recorded, recordAll_replies]
  exact sendsOk_drop h

theorem stateCommand_eq (s : State) (c : Snapshot) :
    stateCommand s c = switchCommand s (switchState s.tables c) := rfl

theorem flipCommand_eq (s : State) : flipCommand s = switchCommand s fun i => !s.swLast[i] := rfl

/-- The state in which the rotary step of a frame with snapshot `c` starts, the entries of `order` flipped and sent (42 R142). -/
abbrev scanned (c : Snapshot) (order : List SwIdx) (ks : List Nat) (s : State) : State :=
  recorded c (fun i => !s.swLast[i]) order ks s

/-! ### Initialisation (41 R123, R124) -/

theorem initRotary_none {c : Snapshot} {s : State} (h : ∀ j : RotIdx, c &&& s.tables.rot[j] = 0#24) :
    initRotary c s = .on s := by
  have ha : assertedRot s.tables c = [] :=
    List.eq_nil_iff_forall_not_mem.2 fun j hj => mem_assertedRot.1 hj (h j)
  rw [initRotary, ha]

/-- Every asserted position is the one some script takes. -/
theorem exists_script_initRotary {tb : Tables} {c : Snapshot} {j : RotIdx} (h : c &&& tb.rot[j] ≠ 0#24) :
    ∃ k, ∀ (s : State) (ks : List Nat), s.tables = tb → s.choices = k :: ks → SendsOk s 1 →
      initRotary c s = .on (sentOk ((s.withChoices ks).writeRot tb.rot[j]) s.rotCmd tb.rotCode[j]) := by
  have hj := mem_assertedRot.2 h
  cases ha : assertedRot tb c with
  | nil => simp [ha] at hj
  | cons j0 js =>
    obtain ⟨k, hk⟩ := exists_chooseFrom (ha ▸ hj)
    refine ⟨k, fun s ks ht hc hs => ?_⟩
    subst ht
    rw [initRotary, ha]
    simp only [nextChoice_script hc, hk, afterChoice_script hc]
    exact emit_sentOk1 (s := (s.withChoices ks).writeRot s.tables.rot[j]) hs _ _

/-- FRAME.INIT, its switch pass in the order the script names: what remains is the rotary pass. -/
theorem frameInit_script {c : Snapshot} {s : State} {k : Nat} {order : List SwIdx}
    (hk : arrange k (configured s) = order) (h : SendsOk s order.length) (ks : List Nat) :
    frameInit c (s.withChoices (k :: ks)) =
      andThen (initRotary c (recorded c (switchState s.tables c) order ks s))
        fun t => .on { t with prev := t.cur, phase := .run } := by
  subst hk
  have hs : initSwitches c { s.withChoices (k :: ks) with cur := c } =
      .on (recorded c (switchState s.tables c) (arrange k (configured s)) ks s) :=
    initSwitch_loop (s := State.withChoices { s with cur := c } ks) h
  rw [frameInit, initialise, hs, andThen]

/-! ### The scan (42 R142, R144) -/

theorem unregistered_zero (s : State) : unregistered s 0#24 = 0#24 := by simp [unregistered]

theorem hits_zero (s : State) : hits s 0#24 = [] := by simp [hits, meets]

/-- With an unregistered bit in the change word no configured entry is all of it: the early exit (42 R143) is not taken. -/
theorem bit_ne_of_unregistered {s : State} {w : Snapshot} (h : unregistered s w ≠ 0#24) {i : SwIdx}
    (hi : s.swValid[i] = true) : s.tables.bit[i] ≠ w := by
  rintro rfl
  refine h (BitVec.eq_of_getLsbD_eq fun k hk => ?_)
  cases hb : s.tables.bit[i].getLsbD k with
  | false => simp_all [unregistered]
  | true => simp [unregistered, hk, cfgMask_bit.2 ⟨i, hi, hb⟩]

/-- The scan's loop where the early exit leaves nothing out, every send ok: `order`, the changed entries of the list as they stand in it, is recorded and sent. -/
theorem scanLoop_all {w : Snapshot} {l order : List SwIdx} {s : State} (hn : l.Nodup)
    (ho : l.filter (fun i => meets s.tables.bit[i] w) = order)
    (he : s.tables.MasksValid ∨ ∀ i ∈ l, s.tables.bit[i] ≠ w) (h : SendsOk s order.length) :
    scanLoop w l s = .on (recordAll (fun i => !s.swLast[i]) order s) := by
  subst ho
  obtain ⟨part, -, hpart, hs⟩ := scanLoop_ok hn (fun i _ => rfl) h
  rw [hs, hpart he]

theorem switchScan_registered {c p : Snapshot} {s : State} (hw : changedWord s.tables c p ≠ 0#24)
    (hu : unregistered s (changedWord s.tables c p) = 0#24) :
    switchScan c p s =
      scanLoop (changedWord s.tables c p) (arrange (nextChoice s) (configured s)) (afterChoice s) := by
  rw [switchScan]
  exact (if_neg hw).trans (if_pos hu)

theorem switchScan_unregistered {c p : Snapshot} {s : State}
    (hu : unregistered s (changedWord s.tables c p) ≠ 0#24) :
    switchScan c p s = faultingScan (changedWord s.tables c p) s := by
  have hw : changedWord s.tables c p ≠ 0#24 := fun e => hu (by rw [e, unregistered_zero])
  rw [switchScan]
  exact (if_neg hw).trans (if_neg hu)

/-- Every order of the hits is the one some script visits, with valid masks and nothing unregistered; a change word of zero draws no choice. -/
theorem exists_script_switchScan {c p : Snapshot} {s : State} {order : List SwIdx} (hV : s.tables.MasksValid)
    (hu : unregistered s (changedWord s.tables c p) = 0#24)
    (ho : order.Perm (hits s (changedWord s.tables c p))) (h : SendsOk s order.length) (ks : List Nat) :
    ∃ ks', switchScan c p (s.withChoices ks') =
      .on (recordAll (fun i => !s.swLast[i]) order (s.withChoices ks)) := by
  by_cases hw : changedWord s.tables c p = 0#24
  · rw [hw, hits_zero] at ho
    exact ⟨ks, by simp [switchScan, hw, ho.eq_nil, recordAll]⟩
  · obtain ⟨k, hk⟩ := exists_arrange_filter ho
    have hl := scanLoop_all (s := s.withChoices ks) (nodup_arrange (nodup_configured s)) hk (.inl hV) h
    exact ⟨k :: ks, (switchScan_registered (s := s.withChoices (k :: ks)) hw hu).trans hl⟩

/-- Every part of the hits, in every order, is what some script handles before UNREGISTERED_BIT. -/
theorem exists_script_faultingScan {c p : Snapshot} {s : State} {part : List SwIdx}
    (hu : unregistered s (changedWord s.tables c p) ≠ 0#24) (hn : part.Nodup)
    (hs : part ⊆ hits s (changedWord s.tables c p)) (h : SendsOk s part.length) (ks : List Nat) :
    ∃ ks', switchScan c p (s.withChoices ks') =
      .dead (raiseFatal .unregisteredBit (recordAll (fun i => !s.swLast[i]) part (s.withChoices ks))) := by
  obtain ⟨k, m, hk⟩ := exists_faultingPart hn hs
  have hl := scanLoop_all (s := s.withChoices ks) (w := changedWord s.tables c p) hn
    (List.filter_eq_self.2 fun i hi => (mem_hits.1 (hs hi)).2)
    (.inr fun i hi => bit_ne_of_unregistered hu (mem_hits.1 (hs hi)).1) h
  have hf : faultingScan (changedWord s.tables c p) (s.withChoices (k :: m :: ks)) =
      andThen (scanLoop (changedWord s.tables c p) (faultingPart k m (hits s (changedWord s.tables c p)))
        (s.withChoices ks)) (fatal .unregisteredBit) := rfl
  refine ⟨k :: m :: ks, (switchScan_unregistered (s := s.withChoices (k :: m :: ks)) hu).trans ?_⟩
  exact hf.trans (by rw [hk, hl]; rfl)

/-! ### The rotary step (43 R160, R162) -/

theorem rotaryStep_silent {c : Snapshot} {s : State} (h : rotKey s.tables c = 0#24 ∨ rotKey s.tables c = s.rotVal) :
    rotaryStep c s = .on s := by
  rw [rotaryStep]; exact if_pos h

theorem rotaryStep_badKey {c : Snapshot} {s : State} (h0 : rotKey s.tables c ≠ 0#24)
    (hr : rotKey s.tables c ≠ s.rotVal) (hj : ∀ j : RotIdx, rotKey s.tables c ≠ s.tables.rot[j]) :
    rotaryStep c s = badKey s := by
  have hn : rotIndex s.tables (rotKey s.tables c) = none := rotIndex_eq_none.2 fun j => (hj j).symm
  rw [rotaryStep]
  simp only [if_neg (not_or.2 ⟨h0, hr⟩), hn]

/-- The choice 0 leaves the step-3 deactivation out. -/
theorem badKey_zero {s : State} {ks : List Nat} (h : s.choices = 0 :: ks) :
    badKey s = .dead (raiseFatal .rotaryKey (s.withChoices ks)) := by
  simp [badKey, fatal, nextChoice_script h, afterChoice_script h]

/-- The choice 1 sends the step-3 deactivation where `rot_val` is `ROT_START`. -/
theorem badKey_one {s : State} {ks : List Nat} (h : s.choices = 1 :: ks) (hr : s.rotVal = rotStart s.tables)
    (hs : SendsOk s 1) :
    badKey s = .dead (raiseFatal .rotaryKey (sentOk (s.withChoices ks) s.startCmd 0)) := by
  have hl : leaveStart (s.withChoices ks) = .on (sentOk (s.withChoices ks) s.startCmd 0) :=
    (if_pos hr).trans (emit_sentOk1 (s := s.withChoices ks) hs _ _)
  simp [badKey, fatal, nextChoice_script h, afterChoice_script h, hl, andThen]

end Sys2Proof.Machine
end

section
/-! SUPPORT. What FRAME.INIT and FRAME.PROC reach under a script of choices, their sends ok: one lemma per choice the rules leave open. -/

namespace Sys2Proof.Machine

section Init
variable {c : Snapshot} {s : State} {order : List SwIdx} (ho : order.Perm (configured s))
  (hs : SendsOk s (order.length + 1))
include ho hs

theorem exists_script_init_none (hj : ∀ j : RotIdx, c &&& s.tables.rot[j] = 0#24) :
    ∃ ks t, flowState (frameInit c (s.withChoices ks)) = t ∧ t.out = s.out ++ order.map (stateCommand s c) := by
  obtain ⟨k, hk⟩ := exists_arrange ho
  refine ⟨[k], _, rfl, ?_⟩
  rw [frameInit_script hk (sendsOk_mono hs (Nat.le_succ _)), initRotary_none (by simpa using hj)]
  simp [andThen, flowState, stateCommand_eq]

theorem exists_script_init_position {j : RotIdx} (hj : c &&& s.tables.rot[j] ≠ 0#24) :
    ∃ ks t, flowState (frameInit c (s.withChoices ks)) = t ∧
      t.out = s.out ++ order.map (stateCommand s c) ++ [⟨s.rotCmd, s.tables.rotCode[j]⟩] ∧
      t.rotVal = s.tables.rot[j] := by
  obtain ⟨k, hk⟩ := exists_arrange ho
  obtain ⟨m, hm⟩ := exists_script_initRotary hj
  refine ⟨[k, m], _, rfl, ?_⟩
  rw [frameInit_script hk (sendsOk_mono hs (Nat.le_succ _)),
    hm _ [] (recorded_tables ..) (recorded_choices ..) (sendsOk_recorded hs)]
  simp [andThen, flowState, sentOk, stateCommand_eq]

end Init

section Scan
variable {c : Snapshot} {s : State} {order : List SwIdx} (hV : s.tables.MasksValid)
  (hu : unregistered s (changedWord s.tables c s.prev) = 0#24)
  (ho : order.Perm (hits s (changedWord s.tables c s.prev))) (hs : SendsOk s (order.length + 2))
include hV hu ho hs

/-- FRAME.PROC, its scan in the order given: what remains is the rotary step, with whatever script is left to it. -/
theorem exists_script_scan (ks : List Nat) :
    ∃ ks', frameProc c (s.withChoices ks') =
      andThen (rotaryStep c (scanned c order ks s)) fun t => .on { t with prev := t.cur } := by
  obtain ⟨ks', h⟩ := exists_script_switchScan (s := { s with cur := c }) hV hu ho
    (sendsOk_mono hs (Nat.le_add_right _ 2)) ks
  have hsc : switchScan c (s.withChoices ks').prev { s.withChoices ks' with cur := c } =
    .on (scanned c order ks s) := h
  exact ⟨ks', by rw [frameProc, process, hsc]; rfl⟩

theorem exists_script_scan_silent (hk : rotKey s.tables c = 0#24 ∨ rotKey s.tables c = s.rotVal) :
    ∃ ks t, flowState (frameProc c (s.withChoices ks)) = t ∧
      t.phase = s.phase ∧ t.out = s.out ++ order.map (flipCommand s) := by
  obtain ⟨ks, h⟩ := exists_script_scan hV hu ho hs []
  refine ⟨ks, _, rfl, ?_⟩
  rw [h, rotaryStep_silent (by simpa using hk)]
  simp [andThen, flowState, flipCommand_eq]

theorem exists_script_scan_move {j : RotIdx} (hk : rotKey s.tables c = s.tables.rot[j])
    (hr : rotKey s.tables c ≠ s.rotVal) :
    ∃ ks t, flowState (frameProc c (s.withChoices ks)) = t ∧
      t.phase = s.phase ∧ t.out = s.out ++ order.map (flipCommand s) ++ moveCommands s j := by
  obtain ⟨ks, h⟩ := exists_script_scan hV hu ho hs []
  refine ⟨ks, _, rfl, ?_⟩
  rw [h, rotaryStep_move (j := j) (by simpa using hV) (by simpa using hk) (by simpa using hk ▸ hr)
    (sendsOk_recorded hs)]
  simp [andThen, flowState, flipCommand_eq]

theorem exists_script_scan_badKey (h0 : rotKey s.tables c ≠ 0#24) (hr : rotKey s.tables c ≠ s.rotVal)
    (hj : ∀ j : RotIdx, rotKey s.tables c ≠ s.tables.rot[j]) :
    (∃ ks t, flowState (frameProc c (s.withChoices ks)) = t ∧
      t.faultCode = .rotaryKey ∧ t.out = s.out ++ order.map (flipCommand s)) ∧
    (s.rotVal = rotStart s.tables → ∃ ks t, flowState (frameProc c (s.withChoices ks)) = t ∧
      t.faultCode = .rotaryKey ∧ t.out = s.out ++ order.map (flipCommand s) ++ [⟨s.startCmd, 0⟩]) := by
  have hbad (ks : List Nat) : rotaryStep c (scanned c order ks s) = badKey (scanned c order ks s) :=
    rotaryStep_badKey (by simpa using h0) (by simpa using hr) (by simpa using hj)
  constructor
  · obtain ⟨ks, h⟩ := exists_script_scan hV hu ho hs [0]
    refine ⟨ks, _, rfl, ?_⟩
    rw [h, hbad, badKey_zero (recorded_choices ..)]
    simp [andThen, flowState, flipCommand_eq]
  · intro hst
    obtain ⟨ks, h⟩ := exists_script_scan hV hu ho hs [1]
    refine ⟨ks, _, rfl, ?_⟩
    rw [h, hbad, badKey_one (recorded_choices ..) (by simpa using hst) (sendsOk_mono (sendsOk_recorded hs) (by decide))]
    simp [andThen, flowState, sentOk, flipCommand_eq]

end Scan

theorem exists_script_unregistered {c : Snapshot} {s : State} {part : List SwIdx}
    (hu : unregistered s (changedWord s.tables c s.prev) ≠ 0#24) (hd : part.Nodup)
    (hm : part ⊆ hits s (changedWord s.tables c s.prev)) (hs : SendsOk s part.length) :
    ∃ ks t, flowState (frameProc c (s.withChoices ks)) = t ∧
      t.faultCode = .unregisteredBit ∧ t.out = s.out ++ part.map (flipCommand s) := by
  obtain ⟨ks, h⟩ := exists_script_faultingScan (s := { s with cur := c }) hu hd hm hs []
  have hsc : switchScan c (s.withChoices ks).prev { s.withChoices ks with cur := c } =
    .dead (raiseFatal .unregisteredBit (scanned c part [] s)) := h
  refine ⟨ks, _, rfl, ?_⟩
  rw [frameProc, process, hsc]
  simp [andThen, flowState, flipCommand_eq]

end Sys2Proof.Machine
end

section
open Sys2Proof Sys2Proof.Machine

/-- Settles O10. -/
theorem stepRunsDecodedOperation : Obligations.StepRunsDecodedOperation := by
  intro s i rest h
  rw [step, fetch_eq_ok h]

/-- Settles O54. -/
theorem tableNamesResolve : Obligations.TableNamesResolve := by
  intro tb i name hu
  constructor
  · exact fun h => (resolveName_eq_some h).symm
  · rintro rfl
    exact resolveName_tabName hu i

/-- Settles O51: an order's number is its digits, a part is the front of an order. -/
theorem choiceNumbersCoverAll : Obligations.ChoiceNumbersCoverAll :=
  ⟨fun _ _ h => exists_arrange h, fun _ _ _ h => exists_chooseFrom h,
    fun _ _ _ hn hs => exists_faultingPart hn hs⟩

/-- Settles O45, clause by clause: each script is built from the numbers of the order and the choices wanted. -/
theorem everyOpenChoiceIsAdmitted : Obligations.EveryOpenChoiceIsAdmitted := by
  refine ⟨fun s n b0 b1 b2 b3 order hp hn hs ho => ?init,
    fun s n b0 b1 b2 b3 changed key hp hn hw hkey hs => ?proc⟩
  case init =>
    have hexec (ks : List Nat) := exec_frame_ready (s := s.withChoices ks) b0 b1 b2 b3 hp hn
    have hs' : SendsOk s (order.length + 1) := by rw [ho.length_eq]; exact hs
    simp only [hexec, Host.Outcome.next.injEq]
    exact ⟨exists_script_init_none ho hs', fun j hj => exists_script_init_position ho hs' hj⟩
  case proc =>
    have hexec (ks : List Nat) := exec_frame_run (s := s.withChoices ks) b0 b1 b2 b3 hp hn
    subst hw hkey
    simp only [hexec, Host.Outcome.next.injEq, ← hp]
    refine ⟨fun hV hu order ho => ?scan, fun hu part hd hm => ?fault⟩
    case scan =>
      have hs' : SendsOk s (order.length + 2) := by rw [ho.length_eq]; exact hs
      exact ⟨exists_script_scan_silent hV hu ho hs', fun j => exists_script_scan_move hV hu ho hs',
        exists_script_scan_badKey hV hu ho hs'⟩
    case fault =>
      have hle := (hd.subperm hm).length_le
      exact exists_script_unregistered hu hd hm (sendsOk_mono hs (Nat.le_add_right_of_le hle))

end

section
/-! SUPPORT. What the step executes: the operation a record starts has an encoding and is no output kind (30 R71, R75). -/

namespace Sys2Proof

theorem decodeNamed_eq_ok {mk : CmdName → Instr} {bs rest : List Byte} {i : Instr}
    (h : decodeNamed mk bs = .ok (i, rest)) : ∃ name, nameFits name = true ∧ i = mk name := by
  unfold decodeNamed at h
  split at h
  case h_1 name _ hn =>
    simp only [Except.ok.injEq, Prod.mk.injEq] at h
    exact ⟨name, (takeName_eq_ok hn).2, h.1.symm⟩
  case h_2 => simp at h

theorem decodeCfgsw_eq_ok {bs rest : List Byte} {i : Instr} (h : decodeCfgsw bs = .ok (i, rest)) :
    ∃ idx name, nameFits name = true ∧ i = .cfgsw idx name := by
  cases bs with
  | nil => simp [decodeCfgsw] at h
  | cons idx r => exact ⟨idx, decodeNamed_eq_ok h⟩

theorem decodeFrame_eq_ok {bs rest : List Byte} {i : Instr} (h : decodeFrame bs = .ok (i, rest)) :
    ∃ n b0 b1 b2 b3, n.toNat ≤ 4 ∧ i = .frame n b0 b1 b2 b3 := by
  unfold decodeFrame at h
  split at h
  case h_1 n b0 b1 b2 b3 _ =>
    split at h
    · rename_i hn
      simp only [Except.ok.injEq, Prod.mk.injEq] at h
      exact ⟨n, b0, b1, b2, b3, hn, h.1.symm⟩
    · simp at h
  case h_2 => simp at h

/-- A record's operation has an encoding and is no output kind, whatever its selector (30 R70). -/
theorem decodePayload_eq_ok {op : BitVec 3} {bs rest : List Byte} {i : Instr}
    (h : decodePayload op bs = .ok (i, rest)) : wellFormed i = true ∧ i.isOutput = false := by
  unfold decodePayload at h
  split at h
  case h_1 => obtain ⟨_, _, hn, rfl⟩ := decodeCfgsw_eq_ok h; exact ⟨hn, rfl⟩
  case h_2 => obtain ⟨_, hn, rfl⟩ := decodeNamed_eq_ok h; exact ⟨hn, rfl⟩
  case h_3 => obtain ⟨_, hn, rfl⟩ := decodeNamed_eq_ok h; exact ⟨hn, rfl⟩
  case h_4 => obtain ⟨_, hn, rfl⟩ := decodeNamed_eq_ok h; exact ⟨hn, rfl⟩
  case h_5 => obtain ⟨_, hn, rfl⟩ := decodeNamed_eq_ok h; exact ⟨hn, rfl⟩
  case h_6 =>
    simp only [Except.ok.injEq, Prod.mk.injEq] at h
    obtain ⟨rfl, -⟩ := h
    exact ⟨rfl, rfl⟩
  case h_7 =>
    obtain ⟨n, b0, b1, b2, b3, hn, rfl⟩ := decodeFrame_eq_ok h
    exact ⟨(wellFormed_frame n b0 b1 b2 b3).2 hn, rfl⟩
  case h_8 => simp at h

theorem decode_eq_ok {bs rest : List Byte} {i : Instr} (h : decode bs = .ok (i, rest)) :
    wellFormed i = true ∧ i.isOutput = false := by
  cases bs with
  | nil => simp at h
  | cons b r =>
    simp only [decode] at h
    split at h
    · exact decodePayload_eq_ok h
    · simp at h

end Sys2Proof

namespace Sys2Proof.Machine

/-- Everything a step can do: execute the well-formed input operation whose record it has taken off the stream. -/
theorem step_next {s t : State} (h : step s = .next t) :
    ∃ i rest, wellFormed i = true ∧ i.isOutput = false ∧ exec i { s with input := rest } = .next t := by
  unfold step fetch at h
  cases hd : decode s.input with
  | error e => simp [hd] at h
  | ok p =>
    obtain ⟨i, rest⟩ := p
    obtain ⟨hw, ho⟩ := decode_eq_ok hd
    exact ⟨i, rest, hw, ho, by simpa [hd] using h⟩

end Sys2Proof.Machine
end

section
/-! SUPPORT. What a frame leaves standing, and what it leaves in `sw_last` and `rot_val` where no fatal error ends it. -/

namespace Sys2Proof.Machine

/-- FRAME keeps the configuration, the tables and the stream, and extends `out` by emittable commands, fatal or not. -/
theorem execFrame_kept {s t : State} {n b0 b1 b2 b3 : Byte} (h : execFrame n b0 b1 b2 b3 s = .next t) : Kept s t := by
  obtain ⟨-, -, rfl⟩ | ⟨-, -, rfl⟩ | ⟨-, -, rfl⟩ := execFrame_next h
  · exact Kept.refl _
  · exact (frameInit_kept _ s).1
  · exact (frameProc_kept _ s).1

theorem kept_emit {s : State} {name : CmdName} {a : Action} (h : Emittable s ⟨name, a⟩) :
    Kept s (flowState (emit name a s)) :=
  (output_cases (C := fun _ => True) h (fun _ => trivial) rfl).1

/-- Outside CONFIG every operation keeps the configuration and extends `out` by emittable commands. -/
theorem exec_kept {i : Instr} {s t : State} (hp : s.phase ≠ .config) (h : exec i s = .next t) : Kept s t := by
  cases i with
  | cfgsw idx name => exact absurd (inConfig_next h).1 hp
  | cfgrot name => exact absurd (inConfig_next h).1 hp
  | cfgstart name => exact absurd (inConfig_next h).1 hp
  | cfggrt name => exact absurd (inConfig_next h).1 hp
  | cfggpr name => exact absurd (inConfig_next h).1 hp
  | build => exact absurd (inConfig_next h).1 hp
  | frame n b0 b1 b2 b3 => exact execFrame_kept (b3 := b3) h
  | swcmd name v =>
    obtain ⟨-, he, rfl⟩ := swcmd_next h
    exact kept_emit he
  | rotcmd name code =>
    obtain ⟨-, he, rfl⟩ := rotcmd_next h
    exact kept_emit he
  | startcmd name v =>
    obtain ⟨-, he, rfl⟩ := startcmd_next h
    exact kept_emit he

theorem buildState_out (s : State) : (buildState s).out = s.out := by
  obtain ⟨-, hb⟩ | ⟨-, -, hb⟩ | ⟨-, -, -, hb⟩ := buildState_cases s <;> rw [hb] <;> rfl

/-- In CONFIG no operation sends. -/
theorem exec_config_out {i : Instr} {s t : State} (hp : s.phase = .config) (h : exec i s = .next t) : t.out = s.out := by
  rcases config_next hp h with ⟨_, _, _, -, -, rfl⟩ | ⟨_, _, -, -, rfl⟩ | ⟨_, -, rfl⟩ | ⟨_, -, rfl⟩ | ⟨_, -, rfl⟩ |
    ⟨_, -, rfl⟩ | ⟨-, rfl⟩
  · rfl
  · rfl
  · rfl
  · rfl
  · rfl
  · rfl
  · exact buildState_out s

/-- What a FRAME.INIT without a fatal error has recorded (41 R123, R124, R126). -/
theorem frameInit_bits {c : Snapshot} {s : State} (h : (flowState (frameInit c s)).phase ≠ .fatal) :
    (∀ j : SwIdx, (flowState (frameInit c s)).swLast[j] =
      if s.swValid[j] = true then switchState s.tables c j else s.swLast[j]) ∧
    ((flowState (frameInit c s)).rotVal = s.rotVal ∨
      ∃ j : RotIdx, (flowState (frameInit c s)).rotVal = s.tables.rot[j]) := by
  have hs : Sound (fun _ => True) { s with cur := c } (initialise c { s with cur := c }) :=
    sound_initialise fun _ => trivial
  obtain ⟨u, hu, ht⟩ | ⟨u, hu, ht⟩ := frameInit_cases c s
  · have hi := initialise_on hu
    rw [ht]; exact hi
  · rw [hu] at hs
    obtain ⟨-, hfatal, -⟩ := sound_dead.1 hs
    rw [ht] at h
    exact absurd hfatal h

/-- A FRAME.PROC without a fatal error went through both its halves: the scan reached some `u`, the rotary step went on from there. -/
theorem frameProc_on {c : Snapshot} {s : State} (h : (flowState (frameProc c s)).phase ≠ .fatal) :
    ∃ u v, switchScan c s.prev { s with cur := c } = .on u ∧ rotaryStep c u = .on v ∧ Went { s with cur := c } u ∧
      (flowState (frameProc c s)).swLast = v.swLast ∧ (flowState (frameProc c s)).rotVal = v.rotVal := by
  have hs : Sound (fun _ => True) { s with cur := c } (process c s.prev { s with cur := c }) :=
    sound_process (fun _ => trivial) (fun _ => trivial) fun _ _ _ _ _ => trivial
  have hw : Sound (fun _ => True) { s with cur := c } (switchScan c s.prev { s with cur := c }) :=
    sound_switchScan (fun _ => trivial) fun _ => trivial
  obtain ⟨v, hv, ht⟩ | ⟨v, hv, ht⟩ := frameProc_cases c s
  · obtain ⟨u, hu, hr⟩ := andThen_on hv
    rw [hu] at hw
    exact ⟨u, v, hu, hr, hw, by rw [ht], by rw [ht]⟩
  · rw [hv] at hs
    obtain ⟨-, hfatal, -⟩ := sound_dead.1 hs
    rw [ht] at h
    exact absurd hfatal h

/-- A FRAME.PROC without a fatal error leaves unconfigured entries alone, whatever the tables (42 R142). -/
theorem frameProc_other {c : Snapshot} {s : State} {j : SwIdx} (h : (flowState (frameProc c s)).phase ≠ .fatal)
    (hj : s.swValid[j] = false) : (flowState (frameProc c s)).swLast[j] = s.swLast[j] := by
  obtain ⟨u, v, hu, hv, -, hl, -⟩ := frameProc_on h
  rw [hl, (rotaryStep_on hv).1]
  exact switchScan_other (s := { s with cur := c }) hj hu

/-- A FRAME.PROC without a fatal error leaves `rot_val` or makes a position active (43 R161, R164). -/
theorem frameProc_rotVal {c : Snapshot} {s : State} (h : (flowState (frameProc c s)).phase ≠ .fatal) :
    (flowState (frameProc c s)).rotVal = s.rotVal ∨
      ∃ j : RotIdx, (flowState (frameProc c s)).rotVal = s.tables.rot[j] := by
  obtain ⟨u, v, hu, hv, hw, -, hr⟩ := frameProc_on h
  rw [hr]
  obtain ⟨-, ⟨-, rfl⟩ | ⟨-, -, hk, j, hj⟩⟩ := rotaryStep_on hv
  · exact .inl (switchScan_rotVal (s := { s with cur := c }) hu)
  · exact .inr ⟨j, by rw [hk, hj, hw.tables]⟩

/-- A FRAME.PROC without a fatal error brings a configured entry that mirrored `prev` to its state in the snapshot: it was flipped exactly if it differed (10 R36, 42 R142). -/
theorem frameProc_mirrors {c : Snapshot} {s : State} {j : SwIdx} (hV : s.tables.MasksValid)
    (h : (flowState (frameProc c s)).phase ≠ .fatal) (hj : s.swValid[j] = true)
    (hm : s.swLast[j] = switchState s.tables s.prev j) :
    (flowState (frameProc c s)).swLast[j] = switchState s.tables c j := by
  obtain ⟨u, v, hu, hv, -, hl, -⟩ := frameProc_on h
  have hflip := (switchScan_on (s := { s with cur := c }) hV hu).2 j
  have hhit : j ∈ hits { s with cur := c } (changedWord s.tables c s.prev) ↔
      (switchState s.tables c j ^^ switchState s.tables s.prev j) = true := by
    rw [mem_hits, ← meets_changed hV]; exact and_iff_right hj
  rw [hl, (rotaryStep_on hv).1, hflip]
  simp only [hhit, hm]
  cases switchState s.tables c j <;> cases switchState s.tables s.prev j <;> rfl

end Sys2Proof.Machine
end

section
/-! SUPPORT. The machine invariant: what a fatal error, a configuration write, BUILD and a frame do to it. -/

namespace Sys2Proof.Machine

/-- `t` is `s` but for the configuration registers. -/
abbrev SameButConfig (s t : State) : Prop :=
  t = { s with
    swValid := t.swValid, swCmd := t.swCmd, rotCmdValid := t.rotCmdValid, rotCmd := t.rotCmd
    startCmdValid := t.startCmdValid, startCmd := t.startCmd
    gearRetargetValid := t.gearRetargetValid, gearRetarget := t.gearRetarget
    gearPrimerValid := t.gearPrimerValid, gearPrimer := t.gearPrimer }

/-- The names a state holds have at most NAME_MAX bytes: the clause `Inv.namesFit` (30 R71). -/
def NamesFit (s : State) : Prop :=
  (∀ i : SwIdx, nameFits s.swCmd[i] = true) ∧ nameFits s.rotCmd = true ∧ nameFits s.startCmd = true ∧
    nameFits s.gearRetarget = true ∧ nameFits s.gearPrimer = true

theorem NamesFit.congr {s t : State} (h : NamesFit s) (hc : SameConfig s t) : NamesFit t := by
  obtain ⟨-, hsw, -, hrot, -, hstart, -, hgr, -, hgp⟩ := hc
  simpa only [NamesFit, hsw, hrot, hstart, hgr, hgp] using h

theorem NamesFit.bindSwitch {s : State} {name : CmdName} (h : NamesFit s) (i : SwIdx) (hn : nameFits name = true) :
    NamesFit (s.bindSwitch i name) := by
  obtain ⟨hsw, hrest⟩ := h
  refine ⟨fun j => ?_, hrest⟩
  simp only [State.bindSwitch_swCmd, Fin.getElem_fin, Vector.getElem_set]
  split
  · exact hn
  · exact hsw j

theorem boundCount_congr {s t : State} (h : t.swValid = s.swValid) : boundCount t = boundCount s := by
  unfold boundCount configured; rw [h]

variable {s t : State}

theorem Inv.withInput (h : Inv s) (rest : List Byte) : Inv { s with input := rest } :=
  { h with }

/-- A fatal error keeps the invariant, which says nothing of the free registers after it (60 R213). -/
theorem Inv.of_fatal (h : Inv s) (hk : Kept s t) (hp : t.phase = .fatal) (hc : t.faultCode ≠ .noFault) : Inv t where
  tablesValid := by rw [hk.tables]; exact h.tablesValid
  faultIffFatal := by simp [hp, hc]
  rotLegal := by simp [hp]
  lastMirrorsPrev := by simp [hp]
  prevIsCur := by simp [hp]
  built := by simp [hp]
  unsent := by simp [hp]
  unboundLast := by simp [hp]
  namesFit := NamesFit.congr h.namesFit hk.config

/-- A write of configuration registers in CONFIG keeps the invariant if it keeps the names short (40 R100). -/
theorem Inv.of_config (h : Inv s) (hp : s.phase = .config) (ht : SameButConfig s t) (hn : NamesFit t) : Inv t := by
  have hpt : t.phase = .config := by rw [ht]; exact hp
  have hlast : t.swLast = s.swLast := by rw [ht]
  obtain ⟨hout, hrot, hzero⟩ := h.unsent (.inl hp)
  exact {
    tablesValid := by rw [ht]; exact h.tablesValid
    faultIffFatal := by rw [ht]; exact h.faultIffFatal
    rotLegal := by rw [ht]; exact h.rotLegal
    lastMirrorsPrev := by simp [hpt]
    prevIsCur := by simp [hpt]
    built := by simp [hpt]
    unsent := by rw [ht]; exact fun _ => ⟨hout, hrot, hzero⟩
    unboundLast := fun _ i _ => by rw [hlast]; exact hzero i
    namesFit := hn }

/-- BUILD keeps the invariant: its checks are what READY asks for, its seeds are zero (40 R106). -/
theorem Inv.build (h : Inv s) (hp : s.phase = .config) : Inv (buildState s) := by
  obtain ⟨-, hb⟩ | ⟨-, -, hb⟩ | ⟨hcount, hrot, hstart, hb⟩ := buildState_cases s <;> rw [hb]
  · exact h.of_fatal (kept_raiseFatal _ s) rfl (by simp)
  · exact h.of_fatal (kept_raiseFatal _ s) rfl (by simp)
  · exact {
      tablesValid := h.tablesValid
      faultIffFatal := by simp [h.faultIffFatal, hp]
      rotLegal := fun _ => .inl rfl
      lastMirrorsPrev := by simp
      prevIsCur := by simp
      built := fun _ => ⟨hcount, hrot, hstart⟩
      unsent := fun _ => ⟨(h.unsent (.inl hp)).1, rfl, by simp⟩
      unboundLast := by simp
      namesFit := h.namesFit }

/-- A frame that ends in RUN keeps the invariant: `prev` is the snapshot, the configured entries mirror it, the others are left alone, and `rot_val` is as before or a position (10 R25, R36). -/
theorem Inv.of_run (h : Inv s) (hp : s.phase = .ready ∨ s.phase = .run) (hk : Kept s t) (ht : t.phase = .run)
    (hf : t.faultCode = s.faultCode) (hprev : t.prev = t.cur)
    (hrot : t.rotVal = s.rotVal ∨ ∃ j : RotIdx, t.rotVal = s.tables.rot[j])
    (hlast : ∀ i : SwIdx, s.swValid[i] = true → t.swLast[i] = switchState s.tables t.prev i)
    (hother : ∀ i : SwIdx, s.swValid[i] = false → t.swLast[i] = s.swLast[i]) : Inv t := by
  obtain ⟨hvalid, -, hrv, -, hsv, -⟩ := hk.config
  have hnf : s.phase ≠ .fatal := by rcases hp with hp | hp <;> simp [hp]
  exact {
    tablesValid := by rw [hk.tables]; exact h.tablesValid
    faultIffFatal := by simp [hf, ht, h.faultIffFatal, hnf]
    rotLegal := fun _ => by
      rw [hk.tables]
      rcases hrot with hr | hr
      · rw [hr]; exact h.rotLegal hnf
      · exact .inr hr
    lastMirrorsPrev := fun _ i hi => by rw [hk.tables]; exact hlast i (by rwa [hvalid] at hi)
    prevIsCur := fun _ => hprev
    built := fun _ => by rw [boundCount_congr hvalid, hrv, hsv]; exact h.built hp
    unsent := by simp [ht]
    unboundLast := fun _ i hi => by
      rw [hvalid] at hi
      rw [hother i hi]; exact h.unboundLast hnf i hi
    namesFit := NamesFit.congr h.namesFit hk.config }

theorem Inv.frameInit (h : Inv s) (hp : s.phase = .ready) (c : Snapshot) : Inv (flowState (frameInit c s)) := by
  obtain ⟨hk, ⟨ht, hf, hcur, hprev⟩ | ⟨ht, hf, -⟩⟩ := frameInit_kept c s
  · obtain ⟨hlast, hrot⟩ := frameInit_bits (c := c) (s := s) (by simp [ht])
    refine h.of_run (.inl hp) hk ht hf (by rw [hprev, hcur]) hrot (fun i hi => ?_) fun i hi => ?_
    · rw [hlast, if_pos hi, hprev]
    · rw [hlast, if_neg (by simp [hi])]
  · exact h.of_fatal hk ht (by simp [hf])

theorem Inv.frameProc (h : Inv s) (hp : s.phase = .run) (c : Snapshot) : Inv (flowState (frameProc c s)) := by
  obtain ⟨hk, ⟨ht, hf, hcur, hprev⟩ | ⟨ht, hf⟩⟩ := frameProc_kept c s
  · rw [hp] at ht
    have hnf : (flowState (Machine.frameProc c s)).phase ≠ .fatal := by simp [ht]
    refine h.of_run (.inr hp) hk ht hf (by rw [hprev, hcur]) (frameProc_rotVal hnf) (fun i hi => ?_)
      fun i hi => frameProc_other hnf hi
    rw [hprev]
    exact frameProc_mirrors h.tablesValid.1 hnf hi (h.lastMirrorsPrev hp i hi)
  · exact h.of_fatal hk ht fun hc => by rw [hc] at hf; exact hf

/-- Every operation that has a record keeps the invariant. The output kinds are left out: in READY they would send before the first valid frame. -/
theorem Inv.exec {i : Instr} (h : Inv s) (hw : wellFormed i = true) (ho : i.isOutput = false)
    (he : exec i s = .next t) : Inv t := by
  cases i with
  | cfgsw idx name =>
    obtain ⟨hp, ht⟩ := inConfig_next he
    split at ht <;> subst ht
    · exact h.of_config hp rfl (NamesFit.bindSwitch h.namesFit _ hw)
    · exact h.of_fatal (kept_raiseFatal _ s) rfl (by simp)
  | cfgrot name =>
    obtain ⟨hp, rfl⟩ := inConfig_next he
    obtain ⟨hsw, -, hrest⟩ := h.namesFit
    exact h.of_config hp rfl ⟨hsw, hw, hrest⟩
  | cfgstart name =>
    obtain ⟨hp, rfl⟩ := inConfig_next he
    obtain ⟨hsw, hrot, -, hgear⟩ := h.namesFit
    exact h.of_config hp rfl ⟨hsw, hrot, hw, hgear⟩
  | cfggrt name =>
    obtain ⟨hp, rfl⟩ := inConfig_next he
    obtain ⟨hsw, hrot, hstart, -, hgp⟩ := h.namesFit
    exact h.of_config hp rfl ⟨hsw, hrot, hstart, hw, hgp⟩
  | cfggpr name =>
    obtain ⟨hp, rfl⟩ := inConfig_next he
    obtain ⟨hsw, hrot, hstart, hgr, -⟩ := h.namesFit
    exact h.of_config hp rfl ⟨hsw, hrot, hstart, hgr, hw⟩
  | build =>
    obtain ⟨hp, rfl⟩ := inConfig_next he
    exact h.build hp
  | frame n b0 b1 b2 b3 =>
    obtain ⟨-, -, rfl⟩ | ⟨-, hp, rfl⟩ | ⟨-, hp, rfl⟩ := execFrame_next (b3 := b3) he
    · exact h
    · exact h.frameInit hp _
    · exact h.frameProc hp _
  | swcmd name v => simp [Instr.isOutput] at ho
  | rotcmd name code => simp [Instr.isOutput] at ho
  | startcmd name v => simp [Instr.isOutput] at ho

end Sys2Proof.Machine
end

section
/-! SUPPORT. Forgetting the gear names (10 R28): it commutes with the operations that a frame and an emission are made of, and changes no outcome but in those names. -/

namespace Sys2Proof.Machine

/-- `forgetGear` on the point an operation's run has reached. -/
def forgetGearFlow : Flow → Flow
  | .on s => .on (forgetGear s)
  | .dead s => .dead (forgetGear s)

@[simp] theorem flowState_forgetGearFlow (f : Flow) : flowState (forgetGearFlow f) = forgetGear (flowState f) := by
  cases f <;> rfl

@[simp] theorem forgetGear_forgetGear (s : State) : forgetGear (forgetGear s) = forgetGear s := rfl

theorem afterChoice_forgetGear (s : State) : afterChoice (forgetGear s) = forgetGear (afterChoice s) := by
  cases h : s.choices <;> simp [afterChoice, forgetGear, h] <;> rfl

theorem afterReply_forgetGear (s : State) : afterReply (forgetGear s) = forgetGear (afterReply s) := by
  cases h : s.replies <;> simp [afterReply, forgetGear, h] <;> rfl

theorem sendError_forgetGear (s : State) : sendError (forgetGear s) = forgetGearFlow (sendError s) := by
  cases h : s.tables.sendErrPolicy <;> simp [sendError, forgetGear, h] <;> rfl

theorem emit_forgetGear (name : CmdName) (a : Action) (s : State) :
    emit name a (forgetGear s) = forgetGearFlow (emit name a s) := by
  have hr : nextReply (forgetGear s) = nextReply s := rfl
  cases h : nextReply s with
  | ok =>
    simp only [emit, hr, h, afterReply_forgetGear]
    rfl
  | err => simp only [emit, hr, h, afterReply_forgetGear, sendError_forgetGear]

/-- `t` is `s` without its gear names. -/
abbrev GearForgotten (s t : State) : Prop := t = forgetGear s

theorem flowRel_gearForgotten {f g : Flow} : FlowRel GearForgotten GearForgotten f g ↔ g = forgetGearFlow f := by
  cases f <;> cases g <;> simp [FlowRel, forgetGearFlow]

theorem congruence_gearForgotten : Congruence GearForgotten GearForgotten where
  tables := by rintro s _ rfl; rfl
  swValid := by rintro s _ rfl; rfl
  swCmd := by rintro s _ rfl; rfl
  swLast := by rintro s _ rfl; rfl
  rotVal := by rintro s _ rfl; rfl
  rotCmd := by rintro s _ rfl; rfl
  startCmd := by rintro s _ rfl; rfl
  nextChoice := by rintro s _ rfl; rfl
  afterChoice := by rintro s _ rfl; exact afterChoice_forgetGear s
  writeLast := by rintro s _ i v rfl; rfl
  writeRot := by rintro s _ m rfl; rfl
  emit := by rintro s _ name a rfl; exact flowRel_gearForgotten.2 (emit_forgetGear name a s)
  fatal := by rintro s _ code rfl; rfl

variable (s : State)

theorem frameInit_forgetGear (c : Snapshot) : frameInit c (forgetGear s) = forgetGearFlow (frameInit c s) := by
  have h : GearForgotten { s with cur := c } { forgetGear s with cur := c } := rfl
  refine flowRel_gearForgotten.1 (FlowRel.andThen (FlowRel.andThen
    (congruence_gearForgotten.initSwitches h rfl) fun _ _ hr => congruence_gearForgotten.initRotary hr rfl) ?_)
  rintro t _ rfl
  rfl

theorem frameProc_forgetGear (c : Snapshot) : frameProc c (forgetGear s) = forgetGearFlow (frameProc c s) := by
  have h : GearForgotten { s with cur := c } { forgetGear s with cur := c } := rfl
  refine flowRel_gearForgotten.1 (FlowRel.andThen (FlowRel.andThen
    (congruence_gearForgotten.switchScan h rfl) fun _ _ hr => congruence_gearForgotten.rotaryStep hr rfl) ?_)
  rintro t _ rfl
  rfl

theorem buildState_forgetGear : buildState (forgetGear s) = forgetGear (buildState s) := by
  simp only [buildState, apply_ite forgetGear]
  rfl

/-- A configuration operation answers alike, but for the gear names, if what it writes is alike but for them. -/
theorem inConfig_forgetGear {m : String} {t u : State} (h : forgetGear t = forgetGear u) :
    forgetGearOutcome (inConfig m (forgetGear s) t) = forgetGearOutcome (inConfig m s u) := by
  have hp : (forgetGear s).phase = s.phase := rfl
  unfold inConfig
  rw [hp]
  split
  · exact congrArg Host.Outcome.next h
  · rfl

theorem execFrame_forgetGear (n b0 b1 b2 b3 : Byte) :
    forgetGearOutcome (execFrame n b0 b1 b2 b3 (forgetGear s)) = forgetGearOutcome (execFrame n b0 b1 b2 b3 s) := by
  have hp : (forgetGear s).phase = s.phase := rfl
  unfold execFrame
  rw [hp, frameInit_forgetGear, frameProc_forgetGear]
  split
  · rfl
  split
  · rfl
  · rfl
  · split <;> simp [forgetGearOutcome]
  · split <;> simp [forgetGearOutcome]

theorem next_emit_forgetGear (name : CmdName) (a : Action) :
    forgetGearOutcome (.next (flowState (emit name a (forgetGear s)))) =
      forgetGearOutcome (.next (flowState (emit name a s))) := by
  simp [forgetGearOutcome, emit_forgetGear]

/-- Every operation answers alike, but for the gear names, whatever they are (10 R28). -/
theorem exec_forgetGear (i : Instr) :
    forgetGearOutcome (exec i (forgetGear s)) = forgetGearOutcome (exec i s) := by
  cases i with
  | cfgsw idx name =>
    refine inConfig_forgetGear s ?_
    split <;> rfl
  | cfgrot name => exact inConfig_forgetGear s rfl
  | cfgstart name => exact inConfig_forgetGear s rfl
  | cfggrt name => exact inConfig_forgetGear s rfl
  | cfggpr name => exact inConfig_forgetGear s rfl
  | build => exact inConfig_forgetGear s (by rw [buildState_forgetGear, forgetGear_forgetGear])
  | frame n b0 b1 b2 b3 => exact execFrame_forgetGear s n b0 b1 b2 b3
  | swcmd name v =>
    simp only [exec, execSwcmd, apply_ite forgetGearOutcome, next_emit_forgetGear]
    rfl
  | rotcmd name code =>
    simp only [exec, execRotcmd, apply_ite forgetGearOutcome, next_emit_forgetGear]
    rfl
  | startcmd name v =>
    simp only [exec, execStartcmd, apply_ite forgetGearOutcome, next_emit_forgetGear]
    rfl

theorem step_forgetGear : forgetGearOutcome (step (forgetGear s)) = forgetGearOutcome (step s) := by
  have hi : (forgetGear s).input = s.input := rfl
  unfold step fetch
  rw [hi]
  cases decode s.input with
  | error e => rfl
  | ok p => exact exec_forgetGear { s with input := p.2 } p.1

/-- Runs from states alike but for the gear names end alike but for them: each step does. -/
theorem run_forgetGear_congr (k : Nat) {s s' : State} (h : forgetGear s = forgetGear s') :
    forgetGearOutcome (Host.Core.run core k s) = forgetGearOutcome (Host.Core.run core k s') := by
  induction k generalizing s s' with
  | zero => exact congrArg Host.Outcome.next h
  | succ k ih =>
    have hstep : forgetGearOutcome (core.step s) = forgetGearOutcome (core.step s') :=
      (step_forgetGear s).symm.trans (h ▸ step_forgetGear s')
    simp only [Host.Core.run]
    generalize core.step s = o at hstep
    generalize core.step s' = o' at hstep
    cases o <;> cases o' <;> simp only [forgetGearOutcome, reduceCtorEq] at hstep ⊢
    case next.next t t' => exact ih (Host.Outcome.next.inj hstep)
    case fault.fault => exact hstep
    case refused.refused => exact hstep

end Sys2Proof.Machine
end

section
/-! SUPPORT. Acceptance by phase (10 R29, 40 R100, 41 R120), and the reference tables (00 R8). -/

namespace Sys2Proof.Machine

theorem inConfig_refused {m : String} {s t : State} (h : s.phase ≠ .config) :
    inConfig m s t = .refused (.notAccepted m s.phase) := if_neg h

theorem execFrame_refused {s : State} {n b0 b1 b2 b3 : Byte} (hp : s.phase = .config ∨ s.phase = .fatal)
    (hn : n.toNat ≤ 4) : execFrame n b0 b1 b2 b3 s = .refused (.notAccepted "FRAME" s.phase) := by
  rcases hp with hp | hp <;> simp [execFrame, not_reserved hn, hp]

theorem referenceTables_valid : referenceTables.Valid := by decide

end Sys2Proof.Machine
end

section
open Sys2Proof Sys2Proof.Machine

/-- Settles O14: the step executes a record's operation, and every such operation keeps the invariant. -/
theorem stepKeepsInvariant : Obligations.StepKeepsInvariant := by
  intro s t h hs
  obtain ⟨i, rest, hw, ho, he⟩ := step_next hs
  exact (h.withInput rest).exec hw ho he

/-- Settles O21, by induction on the number of steps. -/
theorem gearNamesAreNeverRead : Obligations.GearNamesAreNeverRead :=
  fun k _ _ h => run_forgetGear_congr k h

/-- Settles O17: in CONFIG nothing is sent, elsewhere the operation's emissions are emittable. -/
theorem onlyEmittableCommandsAreSent : Obligations.OnlyEmittableCommandsAreSent := by
  intro i s t h
  by_cases hp : s.phase = .config
  · exact ⟨[], by simp [exec_config_out hp h]⟩
  · exact (exec_kept hp h).sent

/-- Settles O20. -/
theorem frameLeavesTheRest : Obligations.FrameLeavesTheRest := by
  intro s t n b0 b1 b2 b3 h
  have hk : Kept s t := execFrame_kept (b3 := b3) h
  refine ⟨hk.config, hk.tables, hk.input, fun hnf => ?_⟩
  obtain ⟨-, -, rfl⟩ | ⟨-, hp, rfl⟩ | ⟨-, hp, rfl⟩ := execFrame_next (b3 := b3) h
  case inl => exact ⟨rfl, fun _ _ => rfl⟩
  case inr.inl =>
    obtain ⟨-, ⟨-, hf, -⟩ | ⟨hfatal, -⟩⟩ := frameInit_kept (packSnapshot b0 b1 b2) s
    · exact ⟨hf, fun i hi => by rw [(frameInit_bits hnf).1, if_neg (by simp [hi])]⟩
    · exact absurd hfatal hnf
  case inr.inr =>
    obtain ⟨-, ⟨-, hf, -⟩ | ⟨hfatal, -⟩⟩ := frameProc_kept (packSnapshot b0 b1 b2) s
    · exact ⟨hf, fun i hi => frameProc_other hnf hi⟩
    · exact absurd hfatal hnf

/-- Settles O9: the numbers are fixed, and no constructor has 7. -/
theorem phaseAndFaultNumbers : Obligations.PhaseAndFaultNumbers := by
  refine ⟨by decide, by decide, fun c => ?_⟩
  cases c <;> decide

/-- Settles O11. -/
theorem resetValues : Obligations.ResetValues := by
  unfold Obligations.ResetValues
  decide

/-- Settles O13: every clause but the tables' is about zeros and the phase CONFIG. -/
theorem resetMeetsInvariant : Obligations.ResetMeetsInvariant where
  tablesValid := referenceTables_valid
  faultIffFatal := by decide
  rotLegal := fun _ => .inl rfl
  lastMirrorsPrev := fun h => by cases h
  prevIsCur := fun h => by cases h
  built := fun h => by rcases h with h | h <;> cases h
  unsent := fun _ => by decide
  unboundLast := fun _ => by decide
  namesFit := by decide

/-- Settles O15. -/
theorem wrongPhaseHasNoStep : Obligations.WrongPhaseHasNoStep :=
  ⟨fun _ hp => ⟨fun _ _ => inConfig_refused hp, fun _ => inConfig_refused hp, fun _ => inConfig_refused hp,
    fun _ => inConfig_refused hp, fun _ => inConfig_refused hp, inConfig_refused hp⟩,
    fun _ _ _ _ _ b3 hp hn => execFrame_refused (b3 := b3) hp hn⟩

end

section
/-! SUPPORT. The frame bytes: the snapshot is three of them one after the other, the fourth is not read (20 R51, R52). -/

namespace Sys2Proof.Machine

theorem packSnapshot_eq_append (b0 b1 b2 : Byte) : packSnapshot b0 b1 b2 = b0 ++ b1 ++ b2 := by
  have h : (b0 ++ b1 ++ b2).setWidth 24 = packSnapshot b0 b1 b2 :=
    BitVec.setWidth_append_append_eq_shiftLeft_setWidth_or
  rw [← h, BitVec.setWidth_eq]

theorem packSnapshot_byte0 (b0 b1 b2 : Byte) : (packSnapshot b0 b1 b2).extractLsb' 16 8 = b0 := by
  rw [packSnapshot_eq_append, BitVec.extractLsb'_append_eq_of_le (by decide)]
  exact BitVec.extractLsb'_append_eq_left

theorem packSnapshot_byte1 (b0 b1 b2 : Byte) : (packSnapshot b0 b1 b2).extractLsb' 8 8 = b1 := by
  rw [packSnapshot_eq_append, BitVec.extractLsb'_append_eq_of_le (by decide)]
  exact BitVec.extractLsb'_append_eq_right

theorem packSnapshot_byte2 (b0 b1 b2 : Byte) : (packSnapshot b0 b1 b2).extractLsb' 0 8 = b2 := by
  rw [packSnapshot_eq_append]
  exact BitVec.extractLsb'_append_eq_right

/-- Counts 3 and 4 are read alike, and the fourth byte is not read (20 R52). -/
theorem execFrame_fourthByte {n m : Byte} (hn : ValidCount n) (hm : ValidCount m) (s : State) (b0 b1 b2 b3 c3 : Byte) :
    execFrame n b0 b1 b2 b3 s = execFrame m b0 b1 b2 c3 s := by
  simp only [execFrame, not_reserved (validCount_le hn), not_reserved (validCount_le hm), validCount_not_short hn,
    validCount_not_short hm]

end Sys2Proof.Machine
end

section
/-! SUPPORT. Snapshots that agree on the masks (20 R65): what a frame reads of a snapshot lies in the masks, so states that differ elsewhere in `cur` and `prev` run alike. -/

namespace Sys2Proof.Machine

/-! ### What the masks decide of a snapshot -/

section
variable {tb : Tables} {v w v' w' : Snapshot}

theorem SameMasked.getLsbD (h : SameMasked tb v w) {k : Nat}
    (hk : (swgMask tb).getLsbD k = true ∨ (rotMask tb).getLsbD k = true) : v.getLsbD k = w.getLsbD k := by
  have hm : (swgMask tb ||| rotMask tb).getLsbD k = true := by simpa using hk
  simpa [hm] using congrArg (BitVec.getLsbD · k) h

/-- A mask whose bits lie in the two masks cuts the same bits out of both snapshots. -/
theorem SameMasked.and_eq (h : SameMasked tb v w) {m : Snapshot}
    (hm : ∀ k, m.getLsbD k = true → (swgMask tb).getLsbD k = true ∨ (rotMask tb).getLsbD k = true) :
    m &&& v = m &&& w := by
  refine BitVec.eq_of_getLsbD_eq fun k _ => ?_
  cases hk : m.getLsbD k with
  | false => simp [hk]
  | true => simp [hk, h.getLsbD (hm k hk)]

theorem SameMasked.switchState_eq (h : SameMasked tb v w) : switchState tb v = switchState tb w := by
  funext i
  simp only [switchState, meets, h.and_eq fun _ hk => .inl (swgMask_bit tb i hk)]

theorem SameMasked.assertedRot_eq (h : SameMasked tb v w) : assertedRot tb v = assertedRot tb w := by
  have hj (j : RotIdx) : meets tb.rot[j] v = meets tb.rot[j] w := by
    simp only [meets, h.and_eq fun _ hk => .inr (rotMask_bit tb j hk)]
  simp only [assertedRot, hj]

theorem SameMasked.rotKey_eq (h : SameMasked tb v w) : rotKey tb v = rotKey tb w := by
  simp only [rotKey, BitVec.and_comm _ (rotMask tb)]
  exact h.and_eq fun _ hk => .inr hk

theorem SameMasked.changedWord_eq (h : SameMasked tb v w) (h' : SameMasked tb v' w') :
    changedWord tb v v' = changedWord tb w w' := by
  refine BitVec.eq_of_getLsbD_eq fun k _ => ?_
  cases hk : (swgMask tb).getLsbD k with
  | false => simp [changedWord, hk]
  | true => simp [changedWord, h.getLsbD (.inl hk), h'.getLsbD (.inl hk)]

end

/-! ### States that differ in their snapshots -/

/-- `prev <- p` and `cur <- q`. -/
def State.withSnapshots (s : State) (p q : Snapshot) : State := { s with prev := p, cur := q }

/-- `t` is `s` but for `cur` and `prev`, which agree on the masks of the tables `tb`. -/
structure AgreeOnMasks (tb : Tables) (s t : State) : Prop where
  tables : s.tables = tb
  rest : t = s.withSnapshots t.prev t.cur
  prev : SameMasked tb s.prev t.prev
  cur : SameMasked tb s.cur t.cur

variable {tb : Tables} {s t : State}

/-- What is read without regard to the snapshots is read alike. -/
theorem AgreeOnMasks.read_eq {α : Type} {f : State → α} (h : AgreeOnMasks tb s t)
    (hf : ∀ p q, f (s.withSnapshots p q) = f s) : f t = f s := by
  rw [h.rest, hf]

/-- An update that neither reads nor writes the snapshots, and leaves the tables, keeps the relation. -/
theorem AgreeOnMasks.map {f : State → State} (h : AgreeOnMasks tb s t)
    (hf : ∀ p q, f (s.withSnapshots p q) = (f s).withSnapshots p q) (ht : (f s).tables = s.tables)
    (hp : (f s).prev = s.prev) (hc : (f s).cur = s.cur) : AgreeOnMasks tb (f s) (f t) := by
  obtain ⟨htb, hrest, hprev, hcur⟩ := h
  rw [hrest, hf]
  exact ⟨ht.trans htb, rfl, hp ▸ hprev, hc ▸ hcur⟩

theorem afterChoice_withSnapshots (s : State) (p q : Snapshot) :
    afterChoice (s.withSnapshots p q) = (afterChoice s).withSnapshots p q := by
  cases h : s.choices <;> simp [afterChoice, State.withSnapshots, h] <;> rfl

theorem afterReply_withSnapshots (s : State) (p q : Snapshot) :
    afterReply (s.withSnapshots p q) = (afterReply s).withSnapshots p q := by
  cases h : s.replies <;> simp [afterReply, State.withSnapshots, h] <;> rfl

/-- A fatal error frees `cur` and `prev`: the states are equal after it (60 R213). -/
theorem AgreeOnMasks.raiseFatal (h : AgreeOnMasks tb s t) (code : FaultCode) :
    AgreeOnMasks tb (raiseFatal code s) (raiseFatal code t) := by
  have heq : Machine.raiseFatal code t = Machine.raiseFatal code s := h.read_eq fun _ _ => rfl
  rw [heq]
  exact ⟨h.tables, rfl, rfl, rfl⟩

theorem AgreeOnMasks.sendError (h : AgreeOnMasks tb s t) :
    FlowRel (AgreeOnMasks tb) (AgreeOnMasks tb) (sendError s) (sendError t) := by
  have ht : t.tables = s.tables := h.read_eq fun _ _ => rfl
  unfold Machine.sendError
  rw [ht]
  split
  · exact h.raiseFatal _
  · exact h

theorem AgreeOnMasks.emit (h : AgreeOnMasks tb s t) (name : CmdName) (a : Action) :
    FlowRel (AgreeOnMasks tb) (AgreeOnMasks tb) (emit name a s) (emit name a t) := by
  have hr : nextReply t = nextReply s := h.read_eq fun _ _ => rfl
  have ha : AgreeOnMasks tb (afterReply s) (afterReply t) :=
    h.map (afterReply_withSnapshots s) (by simp) (by simp) (by simp)
  unfold Machine.emit
  rw [hr]
  split
  · exact ha.map (f := (·.sent name a)) (fun _ _ => rfl) rfl rfl rfl
  · exact ha.sendError

/-- No primitive operation reads `cur` or `prev`. -/
theorem congruence_agreeOnMasks (tb : Tables) : Congruence (AgreeOnMasks tb) (AgreeOnMasks tb) where
  tables h := h.read_eq fun _ _ => rfl
  swValid h := h.read_eq fun _ _ => rfl
  swCmd h := h.read_eq fun _ _ => rfl
  swLast h := h.read_eq fun _ _ => rfl
  rotVal h := h.read_eq fun _ _ => rfl
  rotCmd h := h.read_eq fun _ _ => rfl
  startCmd h := h.read_eq fun _ _ => rfl
  nextChoice h := h.read_eq fun _ _ => rfl
  afterChoice h := h.map (afterChoice_withSnapshots _) (by simp) (by simp) (by simp)
  writeLast i v h := h.map (f := (·.writeLast i v)) (fun _ _ => rfl) rfl rfl rfl
  writeRot m h := h.map (f := (·.writeRot m)) (fun _ _ => rfl) rfl rfl rfl
  emit name a h := h.emit name a
  fatal code h := h.raiseFatal code

/-! ### FRAME (41 R122, R127) -/

section
variable {c c' p p' : Snapshot}

theorem AgreeOnMasks.initialise (h : AgreeOnMasks tb s t) (hc : SameMasked tb c c') :
    FlowRel (AgreeOnMasks tb) (AgreeOnMasks tb) (initialise c s) (initialise c' t) := by
  obtain rfl := h.tables
  have C := congruence_agreeOnMasks s.tables
  refine (C.initSwitches h hc.switchState_eq).andThen fun u v hr => C.initRotary hr ?_
  rw [hr.tables]
  exact hc.assertedRot_eq

theorem AgreeOnMasks.process (h : AgreeOnMasks tb s t) (hc : SameMasked tb c c') (hp : SameMasked tb p p') :
    FlowRel (AgreeOnMasks tb) (AgreeOnMasks tb) (process c p s) (process c' p' t) := by
  obtain rfl := h.tables
  have C := congruence_agreeOnMasks s.tables
  refine (C.switchScan h (hc.changedWord_eq hp)).andThen fun u v hr => C.rotaryStep hr ?_
  rw [hr.tables]
  exact hc.rotKey_eq

/-- A frame that has gone through takes its snapshot for the previous one (41 R122, R127). -/
theorem AgreeOnMasks.remember (h : AgreeOnMasks tb s t) :
    AgreeOnMasks tb { s with prev := s.cur } { t with prev := t.cur } :=
  ⟨h.tables, congrArg (fun u : State => { u with prev := t.cur }) h.rest, h.cur, h.cur⟩

theorem AgreeOnMasks.withPhase (h : AgreeOnMasks tb s t) (ph : Phase) :
    AgreeOnMasks tb { s with phase := ph } { t with phase := ph } :=
  h.map (f := fun s => { s with phase := ph }) (fun _ _ => rfl) rfl rfl rfl

/-- FRAME.INIT, from states that agree once the snapshots are written to `cur`. -/
theorem AgreeOnMasks.frameInit (h : AgreeOnMasks tb { s with cur := c } { t with cur := c' }) :
    FlowRel (AgreeOnMasks tb) (AgreeOnMasks tb) (frameInit c s) (frameInit c' t) :=
  (h.initialise h.cur).andThen fun _ _ hr => hr.remember.withPhase .run

/-- FRAME.PROC, from states that agree once the snapshots are written to `cur`. -/
theorem AgreeOnMasks.frameProc (h : AgreeOnMasks tb { s with cur := c } { t with cur := c' }) :
    FlowRel (AgreeOnMasks tb) (AgreeOnMasks tb) (frameProc c s) (frameProc c' t) :=
  (h.process h.cur h.prev).andThen fun _ _ hr => hr.remember

end

theorem FlowRel.flowState {R : State → State → Prop} {f g : Flow} (h : FlowRel R R f g) :
    R (flowState f) (flowState g) := by
  cases f <;> cases g
  case on.on => exact h
  case dead.dead => exact h
  case on.dead => exact h.elim
  case dead.on => exact h.elim

/-- A valid frame in READY or RUN keeps the agreement, by FRAME.INIT or by FRAME.PROC. -/
theorem AgreeOnMasks.exec_frame {n b0 b1 b2 a0 a1 a2 : Byte} (hph : s.phase = .ready ∨ s.phase = .run)
    (hn : ValidCount n)
    (h : AgreeOnMasks tb { s with cur := packSnapshot b0 b1 b2 } { t with cur := packSnapshot a0 a1 a2 })
    (b3 a3 : Byte) :
    ∃ s' t', exec (.frame n b0 b1 b2 b3) s = .next s' ∧ exec (.frame n a0 a1 a2 a3) t = .next t' ∧
      AgreeOnMasks tb s' t' := by
  have ht : t.phase = s.phase := h.read_eq (f := State.phase) fun _ _ => rfl
  obtain hp | hp := hph
  · exact ⟨_, _, exec_frame_ready b0 b1 b2 b3 hp hn, exec_frame_ready a0 a1 a2 a3 (ht.trans hp) hn,
      h.frameInit.flowState⟩
  · exact ⟨_, _, exec_frame_run b0 b1 b2 b3 hp hn, exec_frame_run a0 a1 a2 a3 (ht.trans hp) hn,
      h.frameProc.flowState⟩

end Sys2Proof.Machine
end

section
open Sys2Proof Sys2Proof.Machine

/-- Settles O43: the two states agree on the masks once the snapshots are written, and the frame keeps that. -/
theorem unassignedBitsHaveNoEffect : Obligations.UnassignedBitsHaveNoEffect := by
  intro s p q n b0 b1 b2 b3 a0 a1 a2 a3 hph hn hp hc
  have h : AgreeOnMasks s.tables { s with cur := packSnapshot b0 b1 b2 }
      { s with prev := p, cur := packSnapshot a0 a1 a2 } := ⟨rfl, rfl, hp, hc⟩
  obtain ⟨t, u, ht, hu, hr⟩ := AgreeOnMasks.exec_frame (t := { s with prev := p, cur := q }) hph hn h b3 a3
  exact ⟨t, u, ht, hu, hr.read_eq (f := (·.withSnapshots t.prev t.cur)) fun _ _ => rfl, hr.prev, hr.cur⟩

/-- Settles O8: the snapshot is the three bytes one after the other. -/
theorem framePacking : Obligations.FramePacking := fun b0 b1 b2 =>
  ⟨rfl, packSnapshot_byte0 b0 b1 b2, packSnapshot_byte1 b0 b1 b2, packSnapshot_byte2 b0 b1 b2⟩

/-- Settles O30. -/
theorem fourthByteIsIgnored : Obligations.FourthByteIsIgnored :=
  fun s _ _ b0 b1 b2 b3 c3 hn hm => execFrame_fourthByte hn hm s b0 b1 b2 b3 c3

end

section
/-! SUPPORT. Records both ways (30 R70 to R76, R83): a record is read back, what is read is its record, and a record cut short is truncated. -/

namespace Sys2Proof

/-! ### A record is read back -/

theorem decodeNamed_payload {name : CmdName} (mk : CmdName → Instr) (rest : List Byte) (h : nameFits name = true) :
    decodeNamed mk (lengthByte name :: (name ++ rest)) = .ok (mk name, rest) := by
  rw [decodeNamed, takeName_payload rest h]

theorem decodeFrame_payload {n : Byte} (b0 b1 b2 b3 : Byte) (rest : List Byte) (hn : n.toNat ≤ 4) :
    decodeFrame (n :: b0 :: b1 :: b2 :: b3 :: rest) = .ok (.frame n b0 b1 b2 b3, rest) := if_pos hn

/-- Each operation's header selects the reader of its own payload. -/
theorem decode_encode_append {i : Instr} (rest : List Byte) (hw : wellFormed i = true) (ho : i.isOutput = false) :
    decode (encode i ++ rest) = .ok (i, rest) := by
  cases i with
  | cfgsw idx name => exact decodeNamed_payload (.cfgsw idx) rest hw
  | cfgrot name => exact decodeNamed_payload .cfgrot rest hw
  | cfgstart name => exact decodeNamed_payload .cfgstart rest hw
  | cfggrt name => exact decodeNamed_payload .cfggrt rest hw
  | cfggpr name => exact decodeNamed_payload .cfggpr rest hw
  | build => rfl
  | frame n b0 b1 b2 b3 => exact decodeFrame_payload b0 b1 b2 b3 rest ((wellFormed_frame n b0 b1 b2 b3).1 hw)
  | swcmd | rotcmd | startcmd => cases ho

/-! ### What is read is its record -/

theorem decodeNamed_bytes {mk : CmdName → Instr} {bs rest : List Byte} {i : Instr}
    (h : decodeNamed mk bs = .ok (i, rest)) : ∃ name, i = mk name ∧ bs = lengthByte name :: (name ++ rest) := by
  unfold decodeNamed at h
  split at h
  case h_1 name _ hn => cases h; exact ⟨name, rfl, (takeName_eq_ok hn).1⟩
  case h_2 => cases h

theorem decodeCfgsw_bytes {bs rest : List Byte} {i : Instr} (h : decodeCfgsw bs = .ok (i, rest)) :
    ∃ idx name, i = .cfgsw idx name ∧ bs = idx :: lengthByte name :: (name ++ rest) := by
  cases bs with
  | nil => cases h
  | cons idx r =>
    obtain ⟨name, rfl, rfl⟩ := decodeNamed_bytes h
    exact ⟨idx, name, rfl, rfl⟩

theorem decodeFrame_bytes {bs rest : List Byte} {i : Instr} (h : decodeFrame bs = .ok (i, rest)) :
    ∃ n b0 b1 b2 b3, i = .frame n b0 b1 b2 b3 ∧ bs = n :: b0 :: b1 :: b2 :: b3 :: rest := by
  unfold decodeFrame at h
  split at h
  case h_1 n b0 b1 b2 b3 _ =>
    split at h <;> cases h
    exact ⟨n, b0, b1, b2, b3, rfl, rfl⟩
  case h_2 => cases h

/-- The selector and the payload read under it are the bytes of the operation's record. -/
theorem decodePayload_bytes {op : BitVec 3} {bs rest : List Byte} {i : Instr}
    (h : decodePayload op bs = .ok (i, rest)) : BitVec.ofNat 8 op.toNat :: bs = encode i ++ rest := by
  unfold decodePayload at h
  split at h
  case h_1 hop => obtain ⟨idx, name, rfl, rfl⟩ := decodeCfgsw_bytes h; rw [hop]; rfl
  case h_2 hop | h_3 hop | h_4 hop | h_5 hop => obtain ⟨name, rfl, rfl⟩ := decodeNamed_bytes h; rw [hop]; rfl
  case h_6 hop => cases h; rw [hop]; rfl
  case h_7 hop => obtain ⟨n, b0, b1, b2, b3, rfl, rfl⟩ := decodeFrame_bytes h; rw [hop]; rfl
  case h_8 => cases h

theorem decode_bytes {bs rest : List Byte} {i : Instr} (h : decode bs = .ok (i, rest)) :
    bs = encode i ++ rest := by
  cases bs with
  | nil => cases h
  | cons b r =>
    simp only [decode] at h
    split at h
    case isTrue h0 => rw [← decodePayload_bytes h, ← header_eq_op b h0]
    case isFalse => cases h

/-! ### What is no record (30 R76) -/

theorem decode_reservedHeader {b : Byte} (rest : List Byte) (h : headerReserved b ≠ 0#5 ∨ b = 0x07#8) :
    decode (b :: rest) = .error .reservedHeader := by
  obtain h | rfl := h
  · exact if_neg h
  · rfl

theorem decode_reservedCount {n : Byte} (b0 b1 b2 b3 : Byte) (rest : List Byte) (h : 4 < n.toNat) :
    decode (0x06#8 :: n :: b0 :: b1 :: b2 :: b3 :: rest) = .error .reservedCount := if_neg (Nat.not_le.2 h)

theorem decodeNamed_cut {name : CmdName} {k : Nat} (mk : CmdName → Instr) (h : nameFits name = true)
    (hk : k < (lengthByte name :: name).length) :
    decodeNamed mk ((lengthByte name :: name).take k) = .error .truncated := by
  rw [decodeNamed, takeName_cut h hk]

theorem decodeCfgsw_cut {idx : Byte} {name : CmdName} {k : Nat} (h : nameFits name = true)
    (hk : k < (idx :: lengthByte name :: name).length) :
    decodeCfgsw ((idx :: lengthByte name :: name).take k) = .error .truncated := by
  cases k with
  | zero => rfl
  | succ k => exact decodeNamed_cut (.cfgsw idx) h (Nat.lt_of_succ_lt_succ hk)

theorem decodeFrame_short {bs : List Byte} (h : bs.length < 5) : decodeFrame bs = .error .truncated := by
  unfold decodeFrame
  split
  case h_1 => simp at h; omega
  case h_2 => rfl

/-- The header stands, so its reader runs, and meets the end of the stream inside the payload. -/
theorem decode_encode_cut {i : Instr} {k : Nat} (hw : wellFormed i = true) (ho : i.isOutput = false) (h0 : 0 < k)
    (hk : k < (encode i).length) : decode ((encode i).take k) = .error .truncated := by
  obtain ⟨k, rfl⟩ := Nat.exists_eq_add_one.2 h0
  cases i with
  | cfgsw idx name => exact decodeCfgsw_cut hw (Nat.lt_of_succ_lt_succ hk)
  | cfgrot name => exact decodeNamed_cut .cfgrot hw (Nat.lt_of_succ_lt_succ hk)
  | cfgstart name => exact decodeNamed_cut .cfgstart hw (Nat.lt_of_succ_lt_succ hk)
  | cfggrt name => exact decodeNamed_cut .cfggrt hw (Nat.lt_of_succ_lt_succ hk)
  | cfggpr name => exact decodeNamed_cut .cfggpr hw (Nat.lt_of_succ_lt_succ hk)
  | build => exact absurd (Nat.lt_of_succ_lt_succ hk) (Nat.not_lt_zero k)
  | frame n b0 b1 b2 b3 =>
    have hlen : ([n, b0, b1, b2, b3].take k).length < 5 :=
      (List.length_take_le _ _).trans_lt (Nat.lt_of_succ_lt_succ hk)
    exact decodeFrame_short hlen
  | swcmd | rotcmd | startcmd => cases ho

/-! ### Datagrams (30 R77) -/

theorem digit_eq_add (a : Action) : digit a = 0x30#8 + BitVec.ofNat 8 a.val := BitVec.ofNat_add _ _

/-- An output message is read back from its datagram under its own kind. -/
theorem decodeOut_encode {i : Instr} {k : OutKind} (h : outKind i = some k) : decodeOut k (encode i) = some i := by
  cases i with
  | swcmd | rotcmd | startcmd => cases h; simp [decodeOut, encode, decodeCommand_encodeCommand]
  | cfgsw | cfgrot | cfgstart | cfggrt | cfggpr | build | frame => cases h

end Sys2Proof

namespace Sys2Proof.Machine

theorem decodeCommand_datagram (c : Command) : decodeCommand (datagram c) = some (c.name, c.action) :=
  decodeCommand_encodeCommand c.name c.action

theorem datagram_injective : Function.Injective datagram := by
  rintro ⟨name, a⟩ ⟨name', a'⟩ h
  have hd := congrArg decodeCommand h
  simp only [decodeCommand_datagram, Option.some.injEq, Prod.mk.injEq] at hd
  obtain ⟨rfl, rfl⟩ := hd
  rfl

/-- Where the stream starts no operation the step refuses, by the reader's own reason. -/
theorem step_refused {s : State} {bs : List Byte} {e : DecodeError} (hs : s.input = bs) (h : decode bs = .error e) :
    step s = .refused (decodeRefusal e) := by
  rw [step, fetch, hs, h]

end Sys2Proof.Machine
end

section
open Sys2Proof Sys2Proof.Machine

/-- Settles O2: the header selects the reader of the operation's own payload, which takes it and leaves the rest. -/
theorem recordRoundTrip : Obligations.RecordRoundTrip := fun _ rest hw ho => decode_encode_append rest hw ho

/-- Settles O4: each reader takes exactly the bytes the encoder writes. -/
theorem decodedRecordIsCanonical : Obligations.DecodedRecordIsCanonical :=
  fun _ _ _ h => ⟨decode_bytes h, decode_eq_ok h⟩

/-- Settles O5: the step refuses by the reason the reader gives. -/
theorem reservedRecordsHaveNoStep : Obligations.ReservedRecordsHaveNoStep :=
  ⟨fun _ _ rest hs h => step_refused hs (decode_reservedHeader rest h),
    fun _ _ b0 b1 b2 b3 rest hs hn => step_refused hs (decode_reservedCount b0 b1 b2 b3 rest hn),
    fun _ _ _ hw ho h0 hk hs => step_refused hs (decode_encode_cut hw ho h0 hk),
    fun _ hs => step_refused hs decode_nil⟩

/-- Settles O1: ten fixed words, read one by one. -/
theorem specWordsDecode : Obligations.SpecWordsDecode := by
  unfold Obligations.SpecWordsDecode
  decide

/-- Settles O3. -/
theorem datagramRoundTrip : Obligations.DatagramRoundTrip := fun _ _ _ h => decodeOut_encode h

/-- Settles O6. -/
theorem datagramBytes : Obligations.DatagramBytes := by
  intro name a
  simp [encodeCommand, digit_eq_add]

/-- Settles O7: the datagram reads back as the command. -/
theorem datagramDeterminesCommand : Obligations.DatagramDeterminesCommand := fun _ _ h => datagram_injective h

end

section
/-! SUPPORT. The phase after an operation (10 R29), and what the configuration operations answer in CONFIG (40). -/

namespace Sys2Proof.Machine

theorem emit_phase {s : State} {name : CmdName} {a : Action} (h : Emittable s ⟨name, a⟩) :
    (flowState (emit name a s)).phase = s.phase ∨ (flowState (emit name a s)).phase = .fatal := by
  obtain ⟨-, ⟨hs, -⟩ | ⟨hf, -⟩⟩ := output_cases (C := fun _ => True) h (fun _ => trivial) rfl
  · exact .inl hs
  · exact .inr hf

/-- Outside CONFIG an operation stays in its phase, goes on to RUN, or ends in FATAL. -/
theorem exec_phase {i : Instr} {s t : State} (hp : s.phase ≠ .config) (h : exec i s = .next t) :
    t.phase = s.phase ∨ t.phase = .run ∨ t.phase = .fatal := by
  cases i with
  | cfgsw idx name => exact absurd (inConfig_next h).1 hp
  | cfgrot name => exact absurd (inConfig_next h).1 hp
  | cfgstart name => exact absurd (inConfig_next h).1 hp
  | cfggrt name => exact absurd (inConfig_next h).1 hp
  | cfggpr name => exact absurd (inConfig_next h).1 hp
  | build => exact absurd (inConfig_next h).1 hp
  | frame n b0 b1 b2 b3 =>
    obtain ⟨-, -, rfl⟩ | ⟨-, -, rfl⟩ | ⟨-, -, rfl⟩ := execFrame_next (b3 := b3) h
    · exact .inl rfl
    · obtain ⟨-, ⟨hrun, -⟩ | ⟨hfatal, -⟩⟩ := frameInit_kept (packSnapshot b0 b1 b2) s
      · exact .inr (.inl hrun)
      · exact .inr (.inr hfatal)
    · obtain ⟨-, ⟨hsame, -⟩ | ⟨hfatal, -⟩⟩ := frameProc_kept (packSnapshot b0 b1 b2) s
      · exact .inl hsame
      · exact .inr (.inr hfatal)
  | swcmd name v =>
    obtain ⟨-, he, rfl⟩ := swcmd_next h
    exact (emit_phase he).imp_right .inr
  | rotcmd name code =>
    obtain ⟨-, he, rfl⟩ := rotcmd_next h
    exact (emit_phase he).imp_right .inr
  | startcmd name v =>
    obtain ⟨-, he, rfl⟩ := startcmd_next h
    exact (emit_phase he).imp_right .inr

/-- In CONFIG a configuration operation answers its next state (40 R100). -/
theorem inConfig_config {m : String} {s t : State} (h : s.phase = .config) : inConfig m s t = .next t := if_pos h

theorem tableIndex_eq_some {idx : Byte} {i : SwIdx} (h : idx.toNat = i.val) : tableIndex idx = some i := by
  have hlt : idx.toNat < 15 := h ▸ i.isLt
  rw [tableIndex, dif_pos hlt]
  exact congrArg some (Fin.ext h)

theorem tableIndex_eq_none {idx : Byte} (h : 14 < idx.toNat) : tableIndex idx = none :=
  dif_neg (by omega)

/-- CFGSW with an entry's index binds the entry (40 R101). -/
theorem execCfgsw_bound {s : State} {i : SwIdx} {idx : Byte} (name : CmdName) (hp : s.phase = .config)
    (hi : idx.toNat = i.val) : execCfgsw idx name s = .next (s.bindSwitch i name) := by
  rw [execCfgsw, inConfig_config hp, tableIndex_eq_some hi]

/-- CFGSW with an index above 14 is `Fatal(CFG_BAD_NAME)` (60 R203). -/
theorem execCfgsw_badName {s : State} {idx : Byte} (name : CmdName) (hp : s.phase = .config)
    (hi : 14 < idx.toNat) : execCfgsw idx name s = .next (raiseFatal .cfgBadName s) := by
  rw [execCfgsw, inConfig_config hp, tableIndex_eq_none hi]

/-- `BUILD` whose two checks pass seeds the mapper and moves to READY (40 R106). -/
theorem buildState_constructed {s : State} (hc : 13 ≤ boundCount s) (hrot : s.rotCmdValid = true)
    (hstart : s.startCmdValid = true) :
    buildState s = { s with swLast := Vector.replicate 15 false, rotVal := 0x000000#24, phase := .ready } := by
  obtain ⟨hfew, -⟩ | ⟨-, hmissing, -⟩ | ⟨-, -, -, hb⟩ := buildState_cases s
  · omega
  · simp [hrot, hstart] at hmissing
  · exact hb

end Sys2Proof.Machine
end

section
open Sys2Proof Sys2Proof.Machine

/-- Settles O16: `exec_kept` gives the configuration, and none of the three phases of `exec_phase` is CONFIG. -/
theorem configurationFrozenAfterBuild : Obligations.ConfigurationFrozenAfterBuild := by
  intro i s t hp h
  refine ⟨(exec_kept hp h).config, ?_⟩
  obtain ht | ht | ht := exec_phase hp h <;> rw [ht]
  · exact hp
  · decide
  · decide

/-- Settles O22: by whether the index names an entry. -/
theorem cfgswBinds : Obligations.CfgswBinds :=
  ⟨fun _ _ _ name hp hi => execCfgsw_bound name hp hi,
    fun s _ name hp hi => ⟨raiseFatal .cfgBadName s, execCfgsw_badName name hp hi, rfl, rfl,
      (kept_raiseFatal _ s).config, rfl⟩⟩

/-- Settles O23. -/
theorem cfgrotSetsRotaryName : Obligations.CfgrotSetsRotaryName := fun _ _ hp => inConfig_config hp

/-- Settles O24. -/
theorem cfgstartSetsStarterName : Obligations.CfgstartSetsStarterName := fun _ _ hp => inConfig_config hp

/-- Settles O25. -/
theorem cfggrtStoresName : Obligations.CfggrtStoresName := fun _ _ hp => inConfig_config hp

/-- Settles O26. -/
theorem cfggprStoresName : Obligations.CfggprStoresName := fun _ _ hp => inConfig_config hp

/-- Settles O27: with both checks passed BUILD has one end. -/
theorem buildConstructs : Obligations.BuildConstructs :=
  fun _ hp hc hrot hstart => (inConfig_config hp).trans (congrArg _ (buildState_constructed hc hrot hstart))

end

section
/-! SUPPORT. FRAME where nothing is sent: a short frame, and a valid one with no mask-relevant change and a silent key. -/

namespace Sys2Proof.Machine

/-- A short frame writes nothing (41 R121). -/
theorem execFrame_short {s : State} {n : Byte} (b0 b1 b2 b3 : Byte) (hp : s.phase = .ready ∨ s.phase = .run)
    (hn : n.toNat ≤ 2) : execFrame n b0 b1 b2 b3 s = .next s := by
  have hr : isReservedCount n = false := not_reserved (by omega)
  have hs : isShort n = true := decide_eq_true hn
  rcases hp with hp | hp <;> simp [execFrame, hr, hs, hp]

@[simp] theorem changedWord_self (tb : Tables) (c : Snapshot) : changedWord tb c c = 0#24 := by
  simp [changedWord]

theorem switchScan_unchanged {c p : Snapshot} {s : State} (h : changedWord s.tables c p = 0#24) :
    switchScan c p s = .on s := by
  rw [switchScan]; exact if_pos h

/-- Neither half of `process` does anything: FRAME.PROC only remembers the snapshot (42 R141, 43 R161). -/
theorem frameProc_quiet {c : Snapshot} {s : State} (hw : changedWord s.tables c s.prev = 0#24)
    (hk : rotKey s.tables c = 0#24 ∨ rotKey s.tables c = s.rotVal) :
    frameProc c s = .on { s with cur := c, prev := c } := by
  have hscan : switchScan c s.prev { s with cur := c } = .on { s with cur := c } := switchScan_unchanged hw
  have hrot : rotaryStep c { s with cur := c } = .on { s with cur := c } := rotaryStep_silent hk
  rw [frameProc, process, hscan, andThen, hrot, andThen]

/-- After a FRAME.PROC without a fatal error the snapshot's key is silent: zero, or the position it has made active (43 R172). -/
theorem frameProc_key {c : Snapshot} {s : State} (h : (flowState (frameProc c s)).phase ≠ .fatal) :
    rotKey s.tables c = 0#24 ∨ rotKey s.tables c = (flowState (frameProc c s)).rotVal := by
  obtain ⟨u, v, -, hv, hw, -, hr⟩ := frameProc_on h
  rw [hr, show s.tables = u.tables from hw.tables.symm]
  obtain ⟨-, ⟨hk, rfl⟩ | ⟨-, -, hk, -⟩⟩ := rotaryStep_on hv
  · exact hk
  · exact .inr hk.symm

/-- FRAME.PROC is idempotent where no fatal error ends it (41 R129). -/
theorem frameProc_repeated {c : Snapshot} {s : State} (h : (flowState (frameProc c s)).phase ≠ .fatal) :
    flowState (frameProc c (flowState (frameProc c s))) = flowState (frameProc c s) := by
  have hkey := frameProc_key h
  obtain ⟨hk, ⟨-, -, hcur, hprev⟩ | ⟨hfatal, -⟩⟩ := frameProc_kept c s
  · generalize flowState (frameProc c s) = t at *
    rw [← hk.tables] at hkey
    rw [frameProc_quiet (by rw [hprev, changedWord_self]) hkey]
    subst hcur
    exact congrArg (fun p => { t with prev := p }) hprev.symm
  · exact absurd hfatal h

end Sys2Proof.Machine
end

section
/-! SUPPORT. FRAME with every send ok: the commands sent, one answer used for each, and the `rot_val` they leave. -/

namespace Sys2Proof.Machine

/-- The commands `l` have been sent ok between `s` and `t`, each using one answer of the script (log 4). -/
structure Delivered (s : State) (l : List Command) (t : State) : Prop where
  out : t.out = s.out ++ l
  replies : t.replies = s.replies.drop l.length

theorem Delivered.nil (s : State) : Delivered s [] s := ⟨by simp, by simp⟩

/-- Sends that follow bookkeeping which sends nothing. -/
theorem Delivered.after {s t u : State} {l : List Command} (h : Delivered t l u) (ho : t.out = s.out)
    (hr : t.replies = s.replies) : Delivered s l u :=
  ⟨by rw [h.out, ho], by rw [h.replies, hr]⟩

theorem Delivered.trans {s t u : State} {l m : List Command} (h : Delivered s l t) (k : Delivered t m u) :
    Delivered s (l ++ m) u :=
  ⟨by rw [k.out, h.out, List.append_assoc], by rw [k.replies, h.replies, List.drop_drop, List.length_append]⟩

/-- The answers that the commands sent leave over. -/
theorem Delivered.sendsOk {s t : State} {l : List Command} {k : Nat} (h : Delivered s l t)
    (hs : SendsOk s (l.length + k)) : SendsOk t k := by
  unfold SendsOk
  rw [h.replies]
  exact sendsOk_drop hs

theorem delivered_recordAll (v : SwIdx → Bool) (l : List SwIdx) (s : State) :
    Delivered s (l.map (switchCommand s v)) (recordAll v l s) :=
  ⟨recordAll_out v l s, by simp⟩

@[simp] theorem recordAll_rotVal (v : SwIdx → Bool) (l : List SwIdx) (s : State) :
    (recordAll v l s).rotVal = s.rotVal := by rw [recordAll_eq]

theorem delivered_sentOk (s : State) (name : CmdName) (a : Action) : Delivered s [⟨name, a⟩] (sentOk s name a) :=
  ⟨rfl, by simp [sentOk]⟩

/-! ### Initialisation (41 R123, R124) -/

/-- The switch pass: one command per configured entry with its state in the snapshot, in some order. -/
theorem initSwitches_ok {c : Snapshot} {s : State} (h : SendsOk s (boundCount s)) :
    ∃ (order : List SwIdx) (t : State), order.Perm (configured s) ∧ initSwitches c s = .on t ∧
      Delivered s (order.map (stateCommand s c)) t ∧ t.rotVal = s.rotVal := by
  have hs : SendsOk (afterChoice s) (arrange (nextChoice s) (configured s)).length := by
    rw [length_arrange]; exact afterChoice_sends h
  have hd := delivered_recordAll (switchState s.tables c) (arrange (nextChoice s) (configured s)) (afterChoice s)
  rw [(went_afterChoice s).config.switchCommand, ← stateCommand_eq] at hd
  refine ⟨_, _, arrange_perm (nextChoice s) _, initSwitch_loop hs, ?_, by simp⟩
  rw [afterChoice_tables]
  exact hd.after (by simp) (by simp)

/-- The rotary pass with a position asserted: the command of one asserted position, which becomes active. -/
theorem initRotary_position {c : Snapshot} {s : State} (hj : ∃ j : RotIdx, c &&& s.tables.rot[j] ≠ 0#24)
    (h : SendsOk s 1) :
    ∃ (j : RotIdx) (t : State), c &&& s.tables.rot[j] ≠ 0#24 ∧ initRotary c s = .on t ∧
      Delivered s [⟨s.rotCmd, s.tables.rotCode[j]⟩] t ∧ t.rotVal = s.tables.rot[j] := by
  obtain ⟨i, hi⟩ := hj
  cases ha : assertedRot s.tables c with
  | nil => exact absurd (mem_assertedRot.2 hi) (by simp [ha])
  | cons j0 js =>
    obtain ⟨j, hj⟩ : ∃ j, chooseFrom (nextChoice s) j0 js = j := ⟨_, rfl⟩
    have hmem : j ∈ assertedRot s.tables c := by rw [ha, ← hj]; exact chooseFrom_mem _ _ _
    have hs : SendsOk ((afterChoice s).writeRot s.tables.rot[j]) 1 := afterChoice_sends h
    refine ⟨j, sentOk ((afterChoice s).writeRot s.tables.rot[j]) s.rotCmd s.tables.rotCode[j],
      mem_assertedRot.1 hmem, ?_, (delivered_sentOk _ _ _).after (by simp) (by simp), rfl⟩
    rw [initRotary, ha, ← emit_sentOk1 hs, ← hj]

/-- What the rotary pass of `initialise` may send for snapshot `c` from `s`, and the `rot_val` it then leaves (41 R124). -/
def RotaryPass (s : State) (c : Snapshot) (rc : List Command) (m : Snapshot) : Prop :=
  ((∀ j : RotIdx, c &&& s.tables.rot[j] = 0#24) ∧ rc = [] ∧ m = s.rotVal) ∨
  ∃ j : RotIdx, c &&& s.tables.rot[j] ≠ 0#24 ∧ rc = [⟨s.rotCmd, s.tables.rotCode[j]⟩] ∧ m = s.tables.rot[j]

theorem initRotary_ok {c : Snapshot} {s : State} (h : SendsOk s 1) :
    ∃ (rc : List Command) (t : State), initRotary c s = .on t ∧ Delivered s rc t ∧ RotaryPass s c rc t.rotVal := by
  by_cases hj : ∃ j : RotIdx, c &&& s.tables.rot[j] ≠ 0#24
  · obtain ⟨j, t, hj, ht, hd, hr⟩ := initRotary_position hj h
    exact ⟨_, t, ht, hd, .inr ⟨j, hj, rfl, hr⟩⟩
  · push Not at hj
    exact ⟨[], s, initRotary_none hj, .nil s, .inl ⟨hj, rfl, rfl⟩⟩

/-- What FRAME.INIT reaches with every send ok: the switch pass's commands, then the rotary pass's; RUN (41 R122). -/
theorem frameInit_ok {c : Snapshot} {s : State} (h : SendsOk s (boundCount s + 1)) :
    ∃ (order : List SwIdx) (rc : List Command), order.Perm (configured s) ∧
      Delivered s (order.map (stateCommand s c) ++ rc) (flowState (frameInit c s)) ∧
      RotaryPass s c rc (flowState (frameInit c s)).rotVal ∧ (flowState (frameInit c s)).phase = .run := by
  obtain ⟨order, u, ho, hu, hdu, hru⟩ :=
    initSwitches_ok (c := c) (s := { s with cur := c }) (sendsOk_mono h (Nat.le_succ _))
  have hw : Sound (fun _ => True) { s with cur := c } (initSwitches c { s with cur := c }) :=
    sound_initSwitches fun _ => trivial
  rw [hu] at hw
  obtain ⟨rc, v, hv, hdv, hrv⟩ := initRotary_ok (c := c) (hdu.sendsOk (k := 1) (by
    rw [List.length_map, ho.length_eq]; exact h))
  have hf : flowState (frameInit c s) = { v with prev := v.cur, phase := .run } := by
    rw [frameInit, initialise, hu, andThen, hv]; rfl
  have hd := hdu.trans hdv
  rw [hf]
  refine ⟨order, rc, ho, ⟨hd.out, hd.replies⟩, ?_, rfl⟩
  obtain ⟨-, -, -, hrot, -⟩ := (sound_on.1 hw).config
  simpa only [RotaryPass, (sound_on.1 hw).tables, hrot, hru] using hrv

/-! ### Change processing (42 R142, 43 R170) -/

theorem rot_ne_zero {tb : Tables} (hV : tb.MasksValid) (j : RotIdx) : tb.rot[j] ≠ 0#24 := by
  obtain ⟨-, -, hone, -⟩ := hV
  exact oneHot_ne_zero (hone j)

/-- With valid masks a position's mask names that position alone (00 R7). -/
theorem rot_injective {tb : Tables} (hV : tb.MasksValid) {i j : RotIdx} (h : tb.rot[i] = tb.rot[j]) : i = j := by
  obtain ⟨-, -, -, hinj, -⟩ := hV
  exact hinj i j h

/-- The scan with nothing unregistered: one flip command per hit, in some order (42 R142). -/
theorem switchScan_delivers {c p : Snapshot} {s : State} (hV : s.tables.MasksValid)
    (hu : unregistered s (changedWord s.tables c p) = 0#24)
    (h : SendsOk s (hits s (changedWord s.tables c p)).length) :
    ∃ (order : List SwIdx) (t : State), order.Perm (hits s (changedWord s.tables c p)) ∧
      switchScan c p s = .on t ∧ Delivered s (order.map (flipCommand s)) t := by
  obtain ⟨order, t, ho, hst, -, -, hr, ht⟩ := switchScan_ok hV hu h
  have hd := delivered_recordAll (fun i => !s.swLast[i]) order t
  rw [switchCommand_congr hst, ← flipCommand_eq] at hd
  exact ⟨order, _, ho, ht, hd.after (by rw [hst]) hr⟩

/-- What the rotary step may send from `s` for a key that is zero or a position, and the `rot_val` it then leaves (43 R161, R170). -/
def RotaryMove (s : State) (key : Snapshot) (rc : List Command) (m : Snapshot) : Prop :=
  ((key = 0#24 ∨ key = s.rotVal) ∧ rc = [] ∧ m = s.rotVal) ∨
  ∃ j : RotIdx, key = s.tables.rot[j] ∧ key ≠ s.rotVal ∧ rc = moveCommands s j ∧ m = key

theorem rotaryStep_ok {c : Snapshot} {s : State} (hV : s.tables.MasksValid)
    (hk : rotKey s.tables c = 0#24 ∨ rotKey s.tables c = s.rotVal ∨ ∃ j : RotIdx, rotKey s.tables c = s.tables.rot[j])
    (h : SendsOk s 2) :
    ∃ (rc : List Command) (t : State), rotaryStep c s = .on t ∧ Delivered s rc t ∧
      RotaryMove s (rotKey s.tables c) rc t.rotVal := by
  by_cases hq : rotKey s.tables c = 0#24 ∨ rotKey s.tables c = s.rotVal
  · exact ⟨[], s, rotaryStep_silent hq, .nil s, .inl ⟨hq, rfl, rfl⟩⟩
  · push Not at hq
    obtain ⟨j, hj⟩ := (hk.resolve_left hq.1).resolve_left hq.2
    exact ⟨moveCommands s j, _, rotaryStep_move hV hj (hj ▸ hq.2) h, ⟨rfl, rfl⟩, .inr ⟨j, hj, hq.2, rfl, hj.symm⟩⟩

section
variable {s : State} {key m : Snapshot} {rc : List Command} (hV : s.tables.MasksValid) (h : RotaryMove s key rc m)
include hV h

theorem RotaryMove.of_silent (hq : key = 0#24 ∨ key = s.rotVal) : rc = [] ∧ m = s.rotVal := by
  obtain ⟨-, hm⟩ | ⟨j, rfl, hne, -⟩ := h
  · exact hm
  · exact absurd hq (not_or.2 ⟨rot_ne_zero hV j, hne⟩)

theorem RotaryMove.of_position {j : RotIdx} (hj : key = s.tables.rot[j]) (hne : key ≠ s.rotVal) :
    rc = moveCommands s j ∧ m = key := by
  obtain ⟨hq, -⟩ | ⟨i, hi, -, hm⟩ := h
  · exact absurd hq (not_or.2 ⟨hj ▸ rot_ne_zero hV j, hne⟩)
  · rwa [rot_injective hV (hi.symm.trans hj)] at hm

end

theorem moveCommands_congr {s t : State} (hw : Went s t) (hr : t.rotVal = s.rotVal) :
    moveCommands t = moveCommands s := by
  obtain ⟨-, -, -, hrot, -, hstart, -⟩ := hw.config
  funext j
  rw [moveCommands, hw.tables, hr, hrot, hstart, moveCommands]

/-- A FRAME.PROC without a fatal error has flipped exactly the hits (42 R142). -/
theorem frameProc_bits {c : Snapshot} {s : State} (hV : s.tables.MasksValid)
    (h : (flowState (frameProc c s)).phase ≠ .fatal) (j : SwIdx) :
    (flowState (frameProc c s)).swLast[j] =
      if j ∈ hits s (changedWord s.tables c s.prev) then !s.swLast[j] else s.swLast[j] := by
  obtain ⟨u, v, hu, hv, -, hl, -⟩ := frameProc_on h
  rw [hl, (rotaryStep_on hv).1]
  exact (switchScan_on (s := { s with cur := c }) hV hu).2 j

/-- What FRAME.PROC reaches with nothing unregistered, a legal key and every send ok: the scan's commands, then the rotary step's (41 R127, R128). -/
theorem frameProc_ok {c : Snapshot} {s : State} (hV : s.tables.MasksValid)
    (hu : unregistered s (changedWord s.tables c s.prev) = 0#24)
    (hk : rotKey s.tables c = 0#24 ∨ rotKey s.tables c = s.rotVal ∨ ∃ j : RotIdx, rotKey s.tables c = s.tables.rot[j])
    (h : SendsOk s ((hits s (changedWord s.tables c s.prev)).length + 2)) :
    ∃ (order : List SwIdx) (rc : List Command), order.Perm (hits s (changedWord s.tables c s.prev)) ∧
      Delivered s (order.map (flipCommand s) ++ rc) (flowState (frameProc c s)) ∧
      RotaryMove s (rotKey s.tables c) rc (flowState (frameProc c s)).rotVal ∧
      (flowState (frameProc c s)).phase = s.phase := by
  obtain ⟨order, u, ho, hscan, hdu⟩ :=
    switchScan_delivers (c := c) (p := s.prev) (s := { s with cur := c }) hV hu (sendsOk_mono h (Nat.le_add_right _ 2))
  have hwu : Sound (fun _ => True) { s with cur := c } (switchScan c s.prev { s with cur := c }) :=
    sound_switchScan (fun _ => trivial) fun _ => trivial
  rw [hscan, sound_on] at hwu
  have hru : u.rotVal = s.rotVal := switchScan_rotVal (s := { s with cur := c }) hscan
  have htu : u.tables = s.tables := hwu.tables
  obtain ⟨rc, v, hrot, hdv, hrv⟩ := rotaryStep_ok (c := c) (s := u) (by rwa [htu]) (by rwa [htu, hru])
    (hdu.sendsOk (by rw [List.length_map, ho.length_eq]; exact h))
  have hwv : Sound (fun _ => True) u (rotaryStep c u) := sound_rotaryStep (fun _ => trivial) fun _ _ _ => trivial
  rw [hrot, sound_on] at hwv
  have hf : flowState (frameProc c s) = { v with prev := v.cur } := by
    rw [frameProc, process, hscan, andThen, hrot]; rfl
  have hd := hdu.trans hdv
  rw [hf]
  refine ⟨order, rc, ho, ⟨hd.out, hd.replies⟩, ?_, (hwu.trans hwv).phase⟩
  have hmove : moveCommands u = moveCommands s := moveCommands_congr (s := { s with cur := c }) hwu hru
  simpa only [RotaryMove, htu, hru, hmove] using hrv

end Sys2Proof.Machine
end

section
/-! SUPPORT. FRAME under the policy `fatal` and a script with an err in it: what it would send in full, and how it ends where the err comes before the end (44 R184). -/

namespace Sys2Proof.Machine

/-- A statement that meets the script's err before it has sent all of `l` ends in TRANSPORT, the commands before the err sent. -/
theorem Emits.dead {s : State} {l : List Command} {f : Flow} {k : Nat} {rs : List SendReply} (h : Emits s l f)
    (hr : s.replies = okThenErr k rs) (hk : k < l.length) :
    ∃ t, f = .dead t ∧ t.phase = .fatal ∧ t.faultCode = .transport ∧ t.out = s.out ++ l.take k := by
  cases f with
  | on t =>
    obtain ⟨-, -, h⟩ := h
    exact absurd (h k rs hr).1 (Nat.not_le.2 hk)
  | dead t =>
    obtain ⟨hp, hc, m, -, ho, h⟩ := h
    exact ⟨t, rfl, hp, hc, h k rs hr ▸ ho⟩

theorem Sound.kept {C : FaultCode → Prop} {s : State} {f : Flow} (h : Sound C s f) : Kept s (flowState f) := by
  cases f with
  | on t => exact (sound_on.1 h).toKept
  | dead t => exact (sound_dead.1 h).1

/-! ### Initialisation (41 R123, R124) -/

theorem emits_initSwitches {c : Snapshot} {s : State} (hp : s.tables.sendErrPolicy = .fatal) :
    Emits s ((arrange (nextChoice s) (configured s)).map (stateCommand s c)) (initSwitches c s) := by
  have h := emits_initLoop (c := c) (s := afterChoice s) (l := arrange (nextChoice s) (configured s))
    (by simpa using hp) fun i hi => by simpa using mem_configured.1 (mem_arrange.1 hi)
  rw [stateCommand_eq, (went_afterChoice s).config.switchCommand, afterChoice_tables, ← stateCommand_eq] at h
  exact h.after (by simp) (by simp) (by simp)

/-- The rotary pass, with a position asserted or not. -/
theorem emits_rotaryPass {c : Snapshot} {s : State} (hp : s.tables.sendErrPolicy = .fatal) :
    ∃ rc, (((∀ j : RotIdx, c &&& s.tables.rot[j] = 0#24) ∧ rc = []) ∨
      ∃ j : RotIdx, c &&& s.tables.rot[j] ≠ 0#24 ∧ rc = [⟨s.rotCmd, s.tables.rotCode[j]⟩]) ∧
      Emits s rc (initRotary c s) := by
  by_cases ha : assertedRot s.tables c = []
  · have hz : ∀ j : RotIdx, c &&& s.tables.rot[j] = 0#24 := fun j =>
      not_not.1 (mt mem_assertedRot.2 (ha ▸ List.not_mem_nil))
    exact ⟨[], .inl ⟨hz, rfl⟩, by rw [initRotary_none hz]; exact emits_nil s⟩
  · obtain ⟨j, hj, he⟩ := emits_initRotary hp ha
    exact ⟨_, .inr ⟨j, mem_assertedRot.1 hj, rfl⟩, he⟩

/-- `initialise` sends a sequence that its rules allow, in full or up to a send error. -/
theorem emits_initialise {c : Snapshot} {s : State} (hp : s.tables.sendErrPolicy = .fatal) :
    ∃ l, InitialEmission s c l ∧ Emits s l (initialise c s) := by
  have hs : Sound (fun _ => True) s (initSwitches c s) := sound_initSwitches fun _ => trivial
  have htb := hs.kept.tables
  obtain ⟨-, -, -, hrot, -⟩ := hs.kept.config
  obtain ⟨rc, hrc, he⟩ := emits_rotaryPass (c := c) (s := flowState (initSwitches c s)) (by rwa [htb])
  rw [htb, hrot] at hrc
  refine ⟨_, ⟨_, rc, rfl, (arrange_perm (nextChoice s) (configured s)).map _, hrc⟩,
    (emits_initSwitches hp).andThen fun t ht => ?_⟩
  rwa [ht] at he

theorem frameInit_dead {c : Snapshot} {s t : State} (h : initialise c { s with cur := c } = .dead t) :
    flowState (frameInit c s) = t := by
  rw [frameInit, h]; rfl

/-- FRAME.INIT whose err comes at one of the commands it would send (44 R184, 60 R207). -/
theorem frameInit_sendError {c : Snapshot} {s : State} {k : Nat} {rs : List SendReply}
    (hp : s.tables.sendErrPolicy = .fatal) (hr : s.replies = okThenErr k rs)
    (hk : k < boundCount s ∨ k = boundCount s ∧ ∃ j : RotIdx, c &&& s.tables.rot[j] ≠ 0#24) :
    ∃ sw : List Command, sw.Perm ((configured s).map (stateCommand s c)) ∧
      (flowState (frameInit c s)).phase = .fatal ∧ (flowState (frameInit c s)).faultCode = .transport ∧
      (flowState (frameInit c s)).out = s.out ++ sw.take k := by
  obtain ⟨l, ⟨sw, rc, rfl, hsw, hrc⟩, he⟩ := emits_initialise (c := c) (s := { s with cur := c }) hp
  have hlen : sw.length = boundCount s := hsw.length_eq.trans (List.length_map _)
  have hlt : k < (sw ++ rc).length := by
    rw [List.length_append, hlen]
    obtain hk | ⟨rfl, i, hi⟩ := hk
    · omega
    · obtain ⟨hz, -⟩ | ⟨j, -, rfl⟩ := hrc
      · exact absurd (hz i) hi
      · simp
  obtain ⟨t, ht, hphase, hcode, hout⟩ := he.dead hr hlt
  rw [List.take_append_of_le_length (by omega)] at hout
  rw [frameInit_dead ht]
  exact ⟨sw, hsw, hphase, hcode, hout⟩

/-! ### Change processing (42 R142, 43 R167) -/

/-- `process` with nothing unregistered and the key a new position: the hits' flips in some order, then the move's commands. -/
theorem emits_process_move {c p : Snapshot} {s : State} {j : RotIdx} (hp : s.tables.sendErrPolicy = .fatal)
    (hV : s.tables.MasksValid) (hu : unregistered s (changedWord s.tables c p) = 0#24)
    (hk : rotKey s.tables c = s.tables.rot[j]) (hne : rotKey s.tables c ≠ s.rotVal) :
    ∃ order : List SwIdx, order.Perm (hits s (changedWord s.tables c p)) ∧
      Emits s (order.map (flipCommand s) ++ moveCommands s j) (process c p s) := by
  obtain ⟨order, ho, he⟩ := emits_switchScan hp hV hu
  refine ⟨order, ho, he.andThen fun t ht => ?_⟩
  have hs : Sound (fun _ => True) s (switchScan c p s) := sound_switchScan (fun _ => trivial) fun _ => trivial
  rw [ht, sound_on] at hs
  have hr := switchScan_rotVal ht
  rw [← moveCommands_congr hs hr]
  rw [hk] at hne
  exact emits_rotaryStep (by rwa [hs.tables]) (by rwa [hs.tables]) (by rwa [hs.tables]) (by rwa [hs.tables, hr])

theorem frameProc_dead {c : Snapshot} {s t : State} (h : process c s.prev { s with cur := c } = .dead t) :
    flowState (frameProc c s) = t := by
  rw [frameProc, h]; rfl

section
variable {c : Snapshot} {s : State} {k : Nat} {rs : List SendReply} (hp : s.tables.sendErrPolicy = .fatal)
  (hV : s.tables.MasksValid) (hu : unregistered s (changedWord s.tables c s.prev) = 0#24)
  (hr : s.replies = okThenErr k rs)
include hp hV hu hr

/-- FRAME.PROC whose err comes at one of the scan's commands, whatever the key (44 R184, 60 R207). -/
theorem frameProc_sendError_scan (hk : k < (hits s (changedWord s.tables c s.prev)).length) :
    ∃ order : List SwIdx, order.Perm (hits s (changedWord s.tables c s.prev)) ∧
      (flowState (frameProc c s)).phase = .fatal ∧ (flowState (frameProc c s)).faultCode = .transport ∧
      (flowState (frameProc c s)).out = s.out ++ (order.map (flipCommand s)).take k := by
  obtain ⟨order, ho, he⟩ := emits_switchScan (c := c) (p := s.prev) (s := { s with cur := c }) hp hV hu
  obtain ⟨t, ht, hend⟩ := he.dead hr (by rw [List.length_map, ho.length_eq]; exact hk)
  rw [frameProc_dead (by rw [process, ht, andThen])]
  exact ⟨order, ho, hend⟩

/-- FRAME.PROC with a move to position `j`, whose err comes at one of the scan's or the move's commands. -/
theorem frameProc_sendError_move {j : RotIdx} (hj : rotKey s.tables c = s.tables.rot[j])
    (hne : rotKey s.tables c ≠ s.rotVal)
    (hk : k < (hits s (changedWord s.tables c s.prev)).length + (moveCommands s j).length) :
    ∃ order : List SwIdx, order.Perm (hits s (changedWord s.tables c s.prev)) ∧
      (flowState (frameProc c s)).phase = .fatal ∧ (flowState (frameProc c s)).faultCode = .transport ∧
      (flowState (frameProc c s)).out = s.out ++ (order.map (flipCommand s) ++ moveCommands s j).take k := by
  obtain ⟨order, ho, he⟩ := emits_process_move (c := c) (p := s.prev) (s := { s with cur := c }) hp hV hu hj hne
  obtain ⟨t, ht, hend⟩ := he.dead hr (by rw [List.length_append, List.length_map, ho.length_eq]; exact hk)
  rw [frameProc_dead ht]
  exact ⟨order, ho, hend⟩

end

end Sys2Proof.Machine
end

section
open Sys2Proof Sys2Proof.Machine

/-- Settles O31: the switch pass, then the rotary pass, each with its sends ok. -/
theorem firstFrameInitialises : Obligations.FirstFrameInitialises := by
  intro s n b0 b1 b2 b3 hp hn hs
  obtain ⟨order, rc, ho, hd, hrot, hrun⟩ := frameInit_ok (c := packSnapshot b0 b1 b2) hs
  obtain ⟨hlast, -⟩ := frameInit_bits (c := packSnapshot b0 b1 b2) (s := s) (by simp [hrun])
  obtain ⟨hkept, ⟨-, hcode, hcur, hprev⟩ | ⟨hfatal, -⟩⟩ := frameInit_kept (packSnapshot b0 b1 b2) s
  · refine ⟨_, _, rc, exec_frame_ready b0 b1 b2 b3 hp hn, ho.map _, by rw [hd.out, List.append_assoc], hlast, ?none,
      ?position, hcur, hprev, hrun, hcode, hkept.config, hkept.tables, hkept.input,
      by rw [hd.replies, List.length_append]⟩
    case none =>
      intro hz
      obtain ⟨-, h⟩ | ⟨j, hj, -⟩ := hrot
      · exact h
      · exact absurd (hz j) hj
    case position =>
      rintro ⟨i, hi⟩
      exact hrot.resolve_left fun h => hi (h.1 i)
  · simp [hrun] at hfatal

/-- Settles O32: the err comes at a command of the switch pass, or at the rotary command right after it. -/
theorem sendErrorStopsInitialisation : Obligations.SendErrorStopsInitialisation := by
  intro s n b0 b1 b2 b3 k rs hp hn hpol hk hr
  obtain ⟨sw, hsw, hfatal, hcode, hout⟩ := frameInit_sendError hpol hr hk
  exact ⟨_, sw, exec_frame_ready b0 b1 b2 b3 hp hn, hfatal, hcode, (frameInit_kept _ s).1.config, hout, hsw⟩

/-- Settles O33: the scan, then the rotary step, each with its sends ok. -/
theorem frameProcessesChanges : Obligations.FrameProcessesChanges := by
  intro s n b0 b1 b2 b3 changed key hV hp hn hw hkey hu hk hs
  subst hw hkey
  obtain ⟨order, rc, ho, hd, hmove, hrun⟩ := frameProc_ok hV hu hk hs
  rw [hp] at hrun
  have hflip := frameProc_bits (c := packSnapshot b0 b1 b2) hV (by simp [hrun])
  obtain ⟨hkept, ⟨-, hcode, hcur, hprev⟩ | ⟨hfatal, -⟩⟩ := frameProc_kept (packSnapshot b0 b1 b2) s
  · exact ⟨_, _, rc, exec_frame_run b0 b1 b2 b3 hp hn, ho.map _, by rw [hd.out, List.append_assoc], hflip,
      hmove.of_silent hV, fun j => hmove.of_position hV, hcur, hprev, hrun, hcode, hkept.config, hkept.tables,
      hkept.input, by rw [hd.replies, List.length_append]⟩
  · simp [hrun] at hfatal

/-- Settles O42: after the frame the snapshot is remembered and its key is silent. -/
theorem repeatedFrameIsSilent : Obligations.RepeatedFrameIsSilent := by
  intro s t n b0 b1 b2 b3 hp hn h ht
  rw [exec_frame_run b0 b1 b2 b3 hp hn, Host.Outcome.next.injEq] at h
  subst h
  rw [exec_frame_run b0 b1 b2 b3 ht hn, frameProc_repeated (by simp [ht])]

/-- Settles O52, by whether the key asks for a move: without one the err comes at a command of the scan. -/
theorem sendErrorStopsProcessing : Obligations.SendErrorStopsProcessing := by
  intro s n b0 b1 b2 b3 changed key k rs hV hp hn hpol hw hkey hu hk hr
  subst hw hkey
  have hexec := exec_frame_run b0 b1 b2 b3 hp hn
  have hconfig := (frameProc_kept (packSnapshot b0 b1 b2) s).1.config
  by_cases hm : ∃ j : RotIdx, rotKey s.tables (packSnapshot b0 b1 b2) = s.tables.rot[j] ∧
    rotKey s.tables (packSnapshot b0 b1 b2) ≠ s.rotVal
  case pos =>
    obtain ⟨j, hj, hne⟩ := hm
    have hlt : k < (hits s (changedWord s.tables (packSnapshot b0 b1 b2) s.prev)).length + (moveCommands s j).length := by
      obtain hk | ⟨i, hi, -, hk⟩ := hk
      · exact Nat.lt_add_right _ hk
      · rwa [rot_injective hV (hi.symm.trans hj)] at hk
    obtain ⟨order, ho, hfatal, hcode, hout⟩ := frameProc_sendError_move hpol hV hu hr hj hne hlt
    refine ⟨_, order.map (flipCommand s), hexec, hfatal, hcode, hconfig, ho.map _, fun hlt => ?scan, fun i hi _ => ?move⟩
    case scan =>
      have hle : k ≤ (order.map (flipCommand s)).length := by rw [List.length_map, ho.length_eq]; exact hlt.le
      rw [hout, List.take_append_of_le_length hle]
    case move => rw [hout, rot_injective hV (hi.symm.trans hj)]
  case neg =>
    have hlt := hk.resolve_right fun ⟨j, hj, hne, _⟩ => hm ⟨j, hj, hne⟩
    obtain ⟨order, ho, hfatal, hcode, hout⟩ := frameProc_sendError_scan hpol hV hu hr hlt
    exact ⟨_, order.map (flipCommand s), hexec, hfatal, hcode, hconfig, ho.map _, fun _ => hout,
      fun j hj hne => absurd ⟨j, hj, hne⟩ hm⟩

/-- Settles O29. -/
theorem shortFrameIsNoOp : Obligations.ShortFrameIsNoOp :=
  fun _ _ b0 b1 b2 b3 hp hn => execFrame_short b0 b1 b2 b3 hp hn

/-- Settles O34. -/
theorem quietFrameOnlyRemembers : Obligations.QuietFrameOnlyRemembers := by
  intro s n b0 b1 b2 b3 c hp hn hc hw hk
  rw [exec_frame_run b0 b1 b2 b3 hp hn, ← hc, frameProc_quiet hw hk]
  rfl

end

section
/-! SUPPORT. The scan: its early exit leaves nothing out, what a change word of one entry's bit hits, and what a faulting scan sends with its sends ok. -/

namespace Sys2Proof.Machine

/-! ### The early exit (42 R143) -/

/-- `emit` never writes the tables when it goes on, whatever the name (44 R180). -/
theorem emit_on_tables {s t : State} {name : CmdName} {a : Action} (h : emit name a s = .on t) :
    t.tables = s.tables := by
  unfold emit sendError at h
  split at h
  · cases h; simp
  · split at h
    · cases h
    · cases h; simp

theorem flipAndEmit_on_tables {s t : State} {i : SwIdx} (h : flipAndEmit i s = .on t) : t.tables = s.tables :=
  emit_on_tables (s := s.writeLast i (!s.swLast[i])) h

theorem scanAll_unmet {w : Snapshot} {l : List SwIdx} {s : State}
    (h : ∀ j ∈ l, ¬ meets s.tables.bit[j] w = true) : scanAll w l s = .on s := by
  induction l with
  | nil => rfl
  | cons i l ih =>
    obtain ⟨hi, hl⟩ := List.forall_mem_cons.1 h
    rw [scanAll, forEach, if_neg hi, andThen]
    exact ih hl

/-- With valid masks no entry is left to visit once an entry is all of the change word. -/
theorem scanLoop_eq_scanAll {w : Snapshot} {l : List SwIdx} {s : State} (hV : s.tables.MasksValid) (hn : l.Nodup) :
    scanLoop w l s = scanAll w l s := by
  induction l generalizing s with
  | nil => rfl
  | cons i l ih =>
    obtain ⟨hil, hn⟩ := List.nodup_cons.1 hn
    rw [scanLoop, scanAll, forEach, ← scanAll]
    by_cases hm : meets s.tables.bit[i] w = true
    · rw [if_pos hm, if_pos hm]
      cases hf : flipAndEmit i s with
      | dead t => rfl
      | on t =>
        have ht : t.tables = s.tables := flipAndEmit_on_tables hf
        have hVt : t.tables.MasksValid := by rwa [ht]
        simp only [andThen]
        split
        case isTrue he =>
          refine (scanAll_unmet fun j hj hmj => hil ?_).symm
          rw [← he] at hmj
          rwa [← bit_meets_bit hVt hmj]
        case isFalse => exact ih hVt hn
    · rw [if_neg hm, if_neg hm]
      exact ih hV hn

/-! ### A change word of one entry's bit (42 R146) -/

theorem changedWord_eq_bit {tb : Tables} {c p : Snapshot} {i : SwIdx} (h : c ^^^ p = tb.bit[i]) :
    changedWord tb c p = tb.bit[i] := by
  refine BitVec.eq_of_getLsbD_eq fun k _ => ?_
  rw [changedWord, h, BitVec.getLsbD_and, Bool.and_eq_left_iff_imp]
  exact swgMask_bit tb i

section
variable {s : State} {i : SwIdx} (hi : s.swValid[i] = true)
include hi

/-- The bit of a configured entry is registered. -/
theorem unregistered_bit : unregistered s s.tables.bit[i] = 0#24 :=
  Classical.byContradiction fun h => bit_ne_of_unregistered h hi rfl

/-- With valid masks an entry's bit is in the change word of that entry alone. -/
theorem hits_bit (hV : s.tables.MasksValid) : hits s s.tables.bit[i] = [i] := by
  have ⟨hone, _⟩ := hV
  have hself : meets s.tables.bit[i] s.tables.bit[i] = true := by
    simpa [meets] using oneHot_ne_zero (hone i)
  refine List.perm_singleton.1 ((List.perm_ext_iff_of_nodup (nodup_hits _ _) (List.nodup_singleton i)).2 fun j => ?_)
  rw [mem_hits, List.mem_singleton]
  constructor
  · rintro ⟨-, hm⟩
    exact bit_meets_bit hV hm
  · rintro rfl
    exact ⟨hi, hself⟩

end

/-- What FRAME.PROC reaches with nothing unregistered, a silent key and the scan's sends ok: the scan's commands alone (41 R128, 43 R161). -/
theorem frameProc_scan_silent {c : Snapshot} {s : State} (hV : s.tables.MasksValid)
    (hu : unregistered s (changedWord s.tables c s.prev) = 0#24)
    (hk : rotKey s.tables c = 0#24 ∨ rotKey s.tables c = s.rotVal)
    (h : SendsOk s (hits s (changedWord s.tables c s.prev)).length) :
    ∃ order : List SwIdx, order.Perm (hits s (changedWord s.tables c s.prev)) ∧
      Delivered s (order.map (flipCommand s)) (flowState (frameProc c s)) ∧
      (flowState (frameProc c s)).rotVal = s.rotVal ∧ (flowState (frameProc c s)).phase = s.phase := by
  obtain ⟨order, u, ho, hscan, hd⟩ := switchScan_delivers (c := c) (p := s.prev) (s := { s with cur := c }) hV hu h
  have hw : Sound (fun _ => True) { s with cur := c } (switchScan c s.prev { s with cur := c }) :=
    sound_switchScan (fun _ => trivial) fun _ => trivial
  rw [hscan, sound_on] at hw
  have hr : u.rotVal = s.rotVal := switchScan_rotVal (s := { s with cur := c }) hscan
  have hrot : rotaryStep c u = .on u := rotaryStep_silent (by rwa [hw.tables, hr])
  have hf : flowState (frameProc c s) = { u with prev := u.cur } := by
    rw [frameProc, process, hscan, andThen, hrot]; rfl
  rw [hf]
  exact ⟨order, ho, ⟨hd.out, hd.replies⟩, hr, hw.phase⟩

/-! ### A faulting scan (42 R144) -/

theorem Went.configured {s t : State} (h : Went s t) : configured t = configured s := by
  obtain ⟨hvalid, -⟩ := h.config
  unfold Machine.configured
  rw [hvalid]

theorem Went.hits {s t : State} (h : Went s t) (w : Snapshot) : hits t w = hits s w := by
  unfold Machine.hits
  rw [h.configured, h.tables]

theorem Went.unregistered {s t : State} (h : Went s t) (w : Snapshot) : unregistered t w = unregistered s w := by
  unfold Machine.unregistered cfgMask
  rw [h.configured, h.tables]

theorem faultingPart_subperm (k m : Nat) (l : List SwIdx) : (faultingPart k m l).Subperm l :=
  (List.take_sublist _ _).subperm.trans (arrange_perm k l).subperm

theorem nodup_faultingPart (k m : Nat) {l : List SwIdx} (h : l.Nodup) : (faultingPart k m l).Nodup :=
  (nodup_arrange h).sublist (List.take_sublist _ _)

/-- With an unregistered bit in the change word, visiting a part of the hits handles all of that part. -/
theorem scanLoop_hits {w : Snapshot} {part : List SwIdx} {s : State} (hu : unregistered s w ≠ 0#24)
    (hn : part.Nodup) (hm : part ⊆ hits s w) (h : SendsOk s part.length) :
    scanLoop w part s = .on (recordAll (fun i => !s.swLast[i]) part s) :=
  scanLoop_all hn (List.filter_eq_self.2 fun _ hi => (mem_hits.1 (hm hi)).2)
    (.inr fun _ hi => bit_ne_of_unregistered hu (mem_hits.1 (hm hi)).1) h

/-- A scan that meets an unregistered bit, every send ok: some of the hits recorded and sent, each at most once, then UNREGISTERED_BIT. -/
theorem switchScan_faults {c p : Snapshot} {s : State} (hu : unregistered s (changedWord s.tables c p) ≠ 0#24)
    (h : SendsOk s (hits s (changedWord s.tables c p)).length) :
    ∃ (part : List SwIdx) (t : State), part.Nodup ∧ part ⊆ hits s (changedWord s.tables c p) ∧
      switchScan c p s = .dead (raiseFatal .unregisteredBit t) ∧ t.out = s.out ++ part.map (flipCommand s) := by
  rw [switchScan_unregistered hu, faultingScan]
  generalize changedWord s.tables c p = w at *
  have hw : Went s (afterChoice (afterChoice s)) := (went_afterChoice s).trans (went_afterChoice (afterChoice s))
  have hpart := faultingPart_subperm (nextChoice s) (nextChoice (afterChoice s)) (hits s w)
  have hn := nodup_faultingPart (nextChoice s) (nextChoice (afterChoice s)) (nodup_hits s w)
  generalize faultingPart (nextChoice s) (nextChoice (afterChoice s)) (hits s w) = part at *
  have hloop := scanLoop_hits (w := w) (s := afterChoice (afterChoice s)) (by rwa [hw.unregistered]) hn
    (by rw [hw.hits]; exact hpart.subset) (afterChoice_sends (afterChoice_sends (sendsOk_mono h hpart.length_le)))
  refine ⟨part, _, hn, hpart.subset, by rw [hloop]; rfl, ?_⟩
  rw [recordAll_out, hw.config.switchCommand, flipCommand_eq]
  simp

/-- FRAME.PROC with an unregistered bit in the change word, every send ok (42 R144). -/
theorem frameProc_unregistered {c : Snapshot} {s : State} (hu : unregistered s (changedWord s.tables c s.prev) ≠ 0#24)
    (h : SendsOk s (hits s (changedWord s.tables c s.prev)).length) :
    ∃ part : List SwIdx, part.Nodup ∧ part ⊆ hits s (changedWord s.tables c s.prev) ∧
      (flowState (frameProc c s)).phase = .fatal ∧ (flowState (frameProc c s)).faultCode = .unregisteredBit ∧
      (flowState (frameProc c s)).out = s.out ++ part.map (flipCommand s) := by
  obtain ⟨part, t, hn, hm, hscan, hout⟩ := switchScan_faults (c := c) (p := s.prev) (s := { s with cur := c }) hu h
  rw [frameProc_dead (by rw [process, hscan, andThen])]
  exact ⟨part, hn, hm, rfl, rfl, hout⟩

end Sys2Proof.Machine
end

section
open Sys2Proof Sys2Proof.Machine

/-- Settles O35: the bit is registered and hits its entry alone; the key leaves the rotary step silent. -/
theorem singleBitChangeSendsOneCommand : Obligations.SingleBitChangeSendsOneCommand := by
  intro s n b0 b1 b2 b3 c i hV hp hn hc hi hbit hk hs
  have hw := changedWord_eq_bit hbit
  have hhits := hits_bit hi hV
  obtain ⟨order, ho, hd, hrot, hrun⟩ := frameProc_scan_silent hV (by rw [hw, unregistered_bit hi]) hk
    (by rw [hw, hhits]; exact hs)
  rw [hw, hhits, List.perm_singleton] at ho
  subst ho
  rw [hp] at hrun
  have hflip := frameProc_bits (c := c) hV (by simp [hrun])
  rw [hw, hhits] at hflip
  have hset (j : SwIdx) : (flowState (frameProc c s)).swLast[j] = (s.writeLast i (!s.swLast[i])).swLast[j] := by
    rw [hflip, getElem_writeLast]
    by_cases hj : j = i <;> simp [hj]
  obtain ⟨hkept, ⟨-, hcode, hcur, hprev⟩ | ⟨hfatal, -⟩⟩ := frameProc_kept c s
  · exact ⟨_, hc ▸ exec_frame_run b0 b1 b2 b3 hp hn, hd.out, Vector.ext fun j hj => hset ⟨j, hj⟩, hcur, hprev, hrot, hrun,
      hcode, hkept.config, hkept.tables, hkept.input, hd.replies⟩
  · simp [hrun] at hfatal

/-- Settles O37: the part of the hits that the two choices name is sent before the fault. -/
theorem unregisteredBitIsFatal : Obligations.UnregisteredBitIsFatal := by
  intro s n b0 b1 b2 b3 changed hp hn hw hu hs
  subst hw
  obtain ⟨part, hnodup, hmem, hfatal, hcode, hout⟩ := frameProc_unregistered hu hs
  exact ⟨_, part, exec_frame_run b0 b1 b2 b3 hp hn, hfatal, hcode, (frameProc_kept _ s).1.config, hnodup, fun _ hi => hmem hi, hout⟩

/-- Settles O39: the early exit is taken only at the last entry that the change word meets. -/
theorem earlyExitIsUnobservable : Obligations.EarlyExitIsUnobservable :=
  fun _ _ _ hV hn => scanLoop_eq_scanAll hV hn

end

section
/-! SUPPORT. The rotary step: when it is silent, what a move alone leaves, what a key that is no position sends with its sends ok, and that an active position stays one (43 R160 to R172). -/

namespace Sys2Proof.Machine

/-! ### Silence (43 R161) -/

/-- A rotary step that leaves the state as it is was silent: a move would have made `rot_val` the key it differed from. -/
theorem rotaryStep_eq_self_iff {c : Snapshot} {s : State} :
    rotaryStep c s = .on s ↔ rotKey s.tables c = 0#24 ∨ rotKey s.tables c = s.rotVal := by
  refine ⟨fun h => ?_, rotaryStep_silent⟩
  obtain ⟨-, ⟨hk, -⟩ | ⟨-, hne, hr, -⟩⟩ := rotaryStep_on h
  · exact hk
  · exact absurd hr.symm hne

/-! ### A move alone (43 R163 to R166) -/

/-- FRAME.PROC with no mask-relevant change and the key a new position, its sends ok (43 R170). -/
theorem frameProc_move {c : Snapshot} {s : State} {j : RotIdx} (hV : s.tables.MasksValid)
    (hw : changedWord s.tables c s.prev = 0#24) (hk : rotKey s.tables c = s.tables.rot[j])
    (hne : s.tables.rot[j] ≠ s.rotVal) (h : SendsOk s 2) :
    frameProc c s = .on { s with
      cur := c, prev := c, rotVal := s.tables.rot[j], out := s.out ++ moveCommands s j,
      replies := s.replies.drop (moveCommands s j).length } := by
  have hscan : switchScan c s.prev { s with cur := c } = .on { s with cur := c } := switchScan_unchanged hw
  rw [frameProc, process, hscan, andThen, rotaryStep_move (s := { s with cur := c }) hV hk hne h]
  rfl

/-! ### A key that is no position (43 R162) -/

/-- A bad key with its one send ok: the step-3 deactivation sent or not, then ROTARY_KEY. -/
theorem badKey_ok {s : State} (h : SendsOk s 1) :
    ∃ (lv : List Command) (t : State), badKey s = .dead (raiseFatal .rotaryKey t) ∧
      (lv = [] ∨ (s.rotVal = rotStart s.tables ∧ lv = [⟨s.startCmd, 0⟩])) ∧ t.out = s.out ++ lv := by
  rw [badKey]
  split
  case isTrue => exact ⟨[], _, rfl, .inl rfl, by simp⟩
  case isFalse =>
    obtain ⟨t, ht, hst, -⟩ := leaveStart_ok (k := 0) (afterChoice_sends h)
    rw [ht]
    refine ⟨_, t, rfl, ?_, by rw [hst, afterChoice_out]⟩
    simp only [afterChoice_rotVal, afterChoice_tables, afterChoice_startCmd]
    by_cases hr : s.rotVal = rotStart s.tables
    · exact .inr ⟨hr, if_pos hr⟩
    · exact .inl (if_neg hr)

/-- FRAME.PROC with nothing unregistered, a key that is no position and every send ok: the scan's commands, then what the bad key sends, then ROTARY_KEY (60 R206, R210). -/
theorem frameProc_badKey {c : Snapshot} {s : State} (hV : s.tables.MasksValid)
    (hu : unregistered s (changedWord s.tables c s.prev) = 0#24) (h0 : rotKey s.tables c ≠ 0#24)
    (hr : rotKey s.tables c ≠ s.rotVal) (hj : ∀ j : RotIdx, rotKey s.tables c ≠ s.tables.rot[j])
    (h : SendsOk s ((hits s (changedWord s.tables c s.prev)).length + 1)) :
    ∃ (order : List SwIdx) (lv : List Command), order.Perm (hits s (changedWord s.tables c s.prev)) ∧
      (lv = [] ∨ (s.rotVal = rotStart s.tables ∧ lv = [⟨s.startCmd, 0⟩])) ∧
      (flowState (frameProc c s)).phase = .fatal ∧ (flowState (frameProc c s)).faultCode = .rotaryKey ∧
      (flowState (frameProc c s)).out = s.out ++ order.map (flipCommand s) ++ lv := by
  obtain ⟨order, u, ho, hscan, hd⟩ :=
    switchScan_delivers (c := c) (p := s.prev) (s := { s with cur := c }) hV hu (sendsOk_mono h (Nat.le_succ _))
  have hw : Sound (fun _ => True) { s with cur := c } (switchScan c s.prev { s with cur := c }) :=
    sound_switchScan (fun _ => trivial) fun _ => trivial
  rw [hscan, sound_on] at hw
  have hru : u.rotVal = s.rotVal := switchScan_rotVal (s := { s with cur := c }) hscan
  have htu : u.tables = s.tables := hw.tables
  obtain ⟨-, -, -, -, -, hstart, -⟩ := hw.config
  obtain ⟨lv, t, hbad, hlv, hout⟩ := badKey_ok (s := u) (hd.sendsOk (by rw [List.length_map, ho.length_eq]; exact h))
  rw [hru, htu, hstart] at hlv
  rw [← rotaryStep_badKey (c := c) (by rwa [htu]) (by rwa [htu, hru]) (by rwa [htu])] at hbad
  rw [frameProc_dead (by rw [process, hscan, andThen, hbad])]
  exact ⟨order, lv, ho, hlv, rfl, rfl, hout.trans (congrArg (· ++ lv) hd.out)⟩

/-! ### An active position stays one (43 R170) -/

/-- A FRAME.PROC without a fatal error leaves `rot_val` or makes a key that is not zero active, whatever the tables. -/
theorem frameProc_rotVal_ne_zero {c : Snapshot} {s : State} (h : (flowState (frameProc c s)).phase ≠ .fatal)
    (hr : s.rotVal ≠ 0#24) : (flowState (frameProc c s)).rotVal ≠ 0#24 := by
  obtain ⟨u, v, hscan, hrot, -, -, hv⟩ := frameProc_on h
  have hu : u.rotVal = s.rotVal := switchScan_rotVal (s := { s with cur := c }) hscan
  rw [hv]
  obtain ⟨-, ⟨-, rfl⟩ | ⟨hk, -, hv, -⟩⟩ := rotaryStep_on hrot
  · rwa [hu]
  · rwa [hv]

/-- An emission without a fatal error leaves `rot_val` (44 R180). -/
theorem emit_rotVal {s : State} {name : CmdName} {a : Action} (h : Emittable s ⟨name, a⟩)
    (ht : (flowState (emit name a s)).phase ≠ .fatal) : (flowState (emit name a s)).rotVal = s.rotVal := by
  obtain ⟨-, ⟨-, -, -, -, -, hr⟩ | ⟨hfatal, -⟩⟩ := output_cases (C := fun _ => True) h (fun _ => trivial) rfl
  · exact hr
  · exact absurd hfatal ht

/-- In RUN an operation without a fatal error keeps `rot_val` non-zero. -/
theorem exec_rotVal_ne_zero {i : Instr} {s t : State} (hp : s.phase = .run) (hr : s.rotVal ≠ 0#24)
    (h : exec i s = .next t) (ht : t.phase ≠ .fatal) : t.rotVal ≠ 0#24 := by
  have hc : s.phase ≠ .config := by simp [hp]
  cases i with
  | cfgsw idx name => exact absurd (inConfig_next h).1 hc
  | cfgrot name => exact absurd (inConfig_next h).1 hc
  | cfgstart name => exact absurd (inConfig_next h).1 hc
  | cfggrt name => exact absurd (inConfig_next h).1 hc
  | cfggpr name => exact absurd (inConfig_next h).1 hc
  | build => exact absurd (inConfig_next h).1 hc
  | frame n b0 b1 b2 b3 =>
    obtain ⟨-, -, rfl⟩ | ⟨-, hready, -⟩ | ⟨-, -, rfl⟩ := execFrame_next (b3 := b3) h
    · exact hr
    · simp [hp] at hready
    · exact frameProc_rotVal_ne_zero ht hr
  | swcmd name v =>
    obtain ⟨-, he, rfl⟩ := swcmd_next h
    rwa [emit_rotVal he ht]
  | rotcmd name code =>
    obtain ⟨-, he, rfl⟩ := rotcmd_next h
    rwa [emit_rotVal he ht]
  | startcmd name v =>
    obtain ⟨-, he, rfl⟩ := startcmd_next h
    rwa [emit_rotVal he ht]

end Sys2Proof.Machine
end

section
open Sys2Proof Sys2Proof.Machine

/-- Settles O36: the scan finds nothing changed, the rotary step makes the move. -/
theorem rotaryMoveSendsInOrder : Obligations.RotaryMoveSendsInOrder := by
  intro s n b0 b1 b2 b3 c j hV hp hn hc hw hk hne hs
  rw [exec_frame_run b0 b1 b2 b3 hp hn, ← hc, frameProc_move hV hw hk hne hs]
  rfl

/-- Settles O38: the scan's sends come first, then the deactivation where the choice takes it, then the fault. -/
theorem severalRotaryBitsAreFatal : Obligations.SeveralRotaryBitsAreFatal := by
  intro s n b0 b1 b2 b3 changed key hV hp hn hw hkey hu h0 hr hj hs
  subst hw hkey
  obtain ⟨order, lv, ho, hlv, hfatal, hcode, hout⟩ := frameProc_badKey hV hu h0 hr hj hs
  exact ⟨_, _, lv, exec_frame_run b0 b1 b2 b3 hp hn, hfatal, hcode, (frameProc_kept _ s).1.config, ho.map _, hlv, hout⟩

/-- Settles O40: of the phases `exec_phase` leaves open only RUN remains, and no operation of RUN writes a zero `rot_val`. -/
theorem positionIsNeverForgotten : Obligations.PositionIsNeverForgotten := by
  intro i s t hp hr h ht
  refine ⟨?_, exec_rotVal_ne_zero hp hr h ht⟩
  obtain hsame | hrun | hfatal := exec_phase (by simp [hp]) h
  · rw [hsame, hp]
  · exact hrun
  · exact absurd hfatal ht

/-- Settles O41. -/
theorem rotaryStepSilentExactly : Obligations.RotaryStepSilentExactly := fun _ _ => rotaryStep_eq_self_iff

end

section
/-! SUPPORT. Emissions: what each output kind answers and when it is refused (44 R181 to R183, R187), and what a send error does under each policy (44 R184). -/

namespace Sys2Proof.Machine

variable {s : State} {name : CmdName}

/-! ### The output kinds, accepted -/

theorem execSwcmd_configured {i : SwIdx} (hp : s.phase = .ready ∨ s.phase = .run) (hv : s.swValid[i] = true) (v : Bool) :
    execSwcmd s.swCmd[i] v s = .next (flowState (emit s.swCmd[i] (bitAction v) s)) := by
  have hany : ((configured s).any fun k => s.swCmd[k] = s.swCmd[i]) = true :=
    List.any_eq_true.2 ⟨i, mem_configured.2 hv, decide_eq_true rfl⟩
  rw [execSwcmd, if_pos hp, if_pos hany]

theorem execRotcmd_position (hp : s.phase = .ready ∨ s.phase = .run) (j : RotIdx) :
    execRotcmd s.rotCmd s.tables.rotCode[j] s = .next (flowState (emit s.rotCmd s.tables.rotCode[j] s)) := by
  have hany : ((List.finRange 5).any fun k => s.tables.rotCode[k] = s.tables.rotCode[j]) = true :=
    List.any_eq_true.2 ⟨j, List.mem_finRange j, decide_eq_true rfl⟩
  rw [execRotcmd, if_pos hp, if_pos ⟨rfl, hany⟩]

theorem execStartcmd_starter (hp : s.phase = .run) (v : Bool) :
    execStartcmd s.startCmd v s = .next (flowState (emit s.startCmd (bitAction v) s)) := by
  rw [execStartcmd, if_pos hp, if_pos rfl]

/-! ### The output kinds, refused (44 R187) -/

theorem execSwcmd_neverEmitted (hp : s.phase = .ready ∨ s.phase = .run)
    (h : ∀ i : SwIdx, s.swValid[i] = true → s.swCmd[i] ≠ name) (v : Bool) :
    execSwcmd name v s = .refused (.neverEmitted "SWCMD") := by
  have hany : ¬ ((configured s).any fun k => s.swCmd[k] = name) = true := fun ha => by
    obtain ⟨i, hi, hn⟩ := List.any_eq_true.1 ha
    exact h i (mem_configured.1 hi) (of_decide_eq_true hn)
  rw [execSwcmd, if_pos hp, if_neg hany]

theorem execRotcmd_neverEmitted {code : Action} (hp : s.phase = .ready ∨ s.phase = .run)
    (h : name ≠ s.rotCmd ∨ ∀ j : RotIdx, s.tables.rotCode[j] ≠ code) :
    execRotcmd name code s = .refused (.neverEmitted "ROTCMD") := by
  have hno : ¬ (name = s.rotCmd ∧ ((List.finRange 5).any fun k => s.tables.rotCode[k] = code) = true) := by
    rintro ⟨hn, ha⟩
    obtain ⟨j, -, hj⟩ := List.any_eq_true.1 ha
    exact h.elim (· hn) (· j (of_decide_eq_true hj))
  rw [execRotcmd, if_pos hp, if_neg hno]

theorem execStartcmd_neverEmitted (hp : s.phase = .run) (h : name ≠ s.startCmd) (v : Bool) :
    execStartcmd name v s = .refused (.neverEmitted "STARTCMD") := by
  rw [execStartcmd, if_pos hp, if_neg h]

theorem execSwcmd_notAccepted (hp : ¬ (s.phase = .ready ∨ s.phase = .run)) (name : CmdName) (v : Bool) :
    execSwcmd name v s = .refused (.notAccepted "SWCMD" s.phase) := if_neg hp

theorem execRotcmd_notAccepted (hp : ¬ (s.phase = .ready ∨ s.phase = .run)) (name : CmdName) (code : Action) :
    execRotcmd name code s = .refused (.notAccepted "ROTCMD" s.phase) := if_neg hp

theorem execStartcmd_notAccepted (hp : s.phase ≠ .run) (name : CmdName) (v : Bool) :
    execStartcmd name v s = .refused (.notAccepted "STARTCMD" s.phase) := if_neg hp

/-! ### Send errors (44 R184) -/

theorem sendError_fatal (h : s.tables.sendErrPolicy = .fatal) : sendError s = fatal .transport s := by
  rw [sendError, h]

theorem sendError_continues (h : s.tables.sendErrPolicy = .continues) : sendError s = .on s := by
  rw [sendError, h]

/-- Under the policy `continue` an emission goes on whatever the answer, which decides `out` alone. -/
theorem emit_continues (h : s.tables.sendErrPolicy = .continues) (name : CmdName) (a : Action) :
    ∃ cs, emit name a s = .on { afterReply s with out := cs } := by
  unfold emit
  split
  · exact ⟨_, rfl⟩
  · exact ⟨_, sendError_continues (by rw [afterReply_tables, h])⟩

end Sys2Proof.Machine
end

section
/-! SUPPORT. Under the policy `continue` two runs that differ in what the sends are answered differ in `out` alone: the relation the primitive operations respect, carried through FRAME (44 R184). -/

namespace Sys2Proof.Machine

/-- Other commands in `out` and another script of answers. -/
def State.withSends (s : State) (cs : List Command) (rs : List SendReply) : State := { s with out := cs, replies := rs }

/-- Under the policy `continue`, `t` is `s` but for `out` and the answers still to come, of which there are equally many. -/
structure AgreeButSends (s t : State) : Prop where
  policy : s.tables.sendErrPolicy = .continues
  rest : t = s.withSends t.out t.replies
  answers : t.replies.length = s.replies.length

variable {s t : State}

/-- What is read without regard to `out` and the answers is read alike. -/
theorem AgreeButSends.read_eq {α : Type} {f : State → α} (h : AgreeButSends s t)
    (hf : ∀ cs rs, f (s.withSends cs rs) = f s) : f t = f s := by
  rw [h.rest, hf]

/-- An update that neither reads nor writes `out` and the answers, and leaves the tables, keeps the relation. -/
theorem AgreeButSends.map {f : State → State} (h : AgreeButSends s t)
    (hf : ∀ cs rs, f (s.withSends cs rs) = (f s).withSends cs rs) (ht : (f s).tables = s.tables)
    (hr : (f s).replies = s.replies) : AgreeButSends (f s) (f t) := by
  obtain ⟨hpolicy, hrest, hanswers⟩ := h
  rw [hrest, hf]
  exact ⟨ht ▸ hpolicy, rfl, hr ▸ hanswers⟩

theorem afterChoice_withSends (s : State) (cs : List Command) (rs : List SendReply) :
    afterChoice (s.withSends cs rs) = (afterChoice s).withSends cs rs := by
  cases h : s.choices <;> simp [afterChoice, State.withSends, h] <;> rfl

theorem afterReply_nil (h : s.replies = []) : afterReply s = s.ticked 1 := by
  rw [afterReply, h]

theorem afterReply_cons {r : SendReply} {rs : List SendReply} (h : s.replies = r :: rs) :
    afterReply s = s.withReplies rs := by
  rw [afterReply, h]

/-- The scripts run out at the same send, so the counter moves in both states or in neither. -/
theorem AgreeButSends.afterReply (h : AgreeButSends s t) : AgreeButSends (afterReply s) (afterReply t) := by
  have hlen := h.answers
  cases hs : s.replies with
  | nil =>
    have ht : t.replies = [] := by simpa [hs] using hlen
    rw [afterReply_nil hs, afterReply_nil ht]
    exact h.map (f := (·.ticked 1)) (fun _ _ => rfl) rfl rfl
  | cons r rs =>
    obtain ⟨q, qs, ht⟩ := List.exists_cons_of_length_eq_add_one (hlen.trans (by rw [hs, List.length_cons]))
    rw [afterReply_cons hs, afterReply_cons ht]
    refine ⟨h.policy, congrArg (·.withReplies qs) h.rest, ?_⟩
    simpa [hs, ht] using hlen

theorem AgreeButSends.withOut (h : AgreeButSends s t) (cs ds : List Command) :
    AgreeButSends { s with out := cs } { t with out := ds } :=
  ⟨h.policy, congrArg (fun u : State => { u with out := ds }) h.rest, h.answers⟩

theorem AgreeButSends.emit (h : AgreeButSends s t) (name : CmdName) (a : Action) :
    FlowRel AgreeButSends AgreeButSends (emit name a s) (emit name a t) := by
  have htables : t.tables = s.tables := h.read_eq fun _ _ => rfl
  obtain ⟨cs, hs⟩ := emit_continues h.policy name a
  obtain ⟨ds, ht⟩ := emit_continues (s := t) (by rw [htables, h.policy]) name a
  rw [hs, ht]
  exact h.afterReply.withOut cs ds

/-- No primitive operation reads `out`, and only `emit` reads an answer. -/
theorem congruence_agreeButSends : Congruence AgreeButSends AgreeButSends where
  tables h := h.read_eq fun _ _ => rfl
  swValid h := h.read_eq fun _ _ => rfl
  swCmd h := h.read_eq fun _ _ => rfl
  swLast h := h.read_eq fun _ _ => rfl
  rotVal h := h.read_eq fun _ _ => rfl
  rotCmd h := h.read_eq fun _ _ => rfl
  startCmd h := h.read_eq fun _ _ => rfl
  nextChoice h := h.read_eq fun _ _ => rfl
  afterChoice h := h.map (afterChoice_withSends _) (by simp) (by simp)
  writeLast i v h := h.map (f := (·.writeLast i v)) (fun _ _ => rfl) rfl rfl
  writeRot m h := h.map (f := (·.writeRot m)) (fun _ _ => rfl) rfl rfl
  emit name a h := h.emit name a
  fatal code h := h.map (f := raiseFatal code) (fun _ _ => rfl) rfl rfl

theorem AgreeButSends.withCur (h : AgreeButSends s t) (c : Snapshot) :
    AgreeButSends { s with cur := c } { t with cur := c } :=
  h.map (f := ({ · with cur := c })) (fun _ _ => rfl) rfl rfl

theorem AgreeButSends.frameInit (h : AgreeButSends s t) (c : Snapshot) :
    FlowRel AgreeButSends AgreeButSends (frameInit c s) (frameInit c t) := by
  have C := congruence_agreeButSends
  refine FlowRel.andThen ((C.initSwitches (h.withCur c) rfl).andThen fun _ _ hr => C.initRotary hr rfl) fun _ _ hr => ?_
  exact hr.map (f := fun u => { u with prev := u.cur, phase := .run }) (fun _ _ => rfl) rfl rfl

theorem AgreeButSends.frameProc (h : AgreeButSends s t) (c : Snapshot) :
    FlowRel AgreeButSends AgreeButSends (frameProc c s) (frameProc c t) := by
  have C := congruence_agreeButSends
  have hprev : t.prev = s.prev := h.read_eq fun _ _ => rfl
  have hscan := C.switchScan (h.withCur c) (c := c) (c' := c) (p := s.prev) (p' := t.prev) (by rw [hprev])
  refine FlowRel.andThen (hscan.andThen fun _ _ hr => C.rotaryStep hr rfl) fun _ _ hr => ?_
  exact hr.map (f := fun u => { u with prev := u.cur }) (fun _ _ => rfl) rfl rfl

/-- A valid frame in READY or RUN keeps the agreement, by FRAME.INIT or by FRAME.PROC. -/
theorem AgreeButSends.exec_frame (h : AgreeButSends s t) {n : Byte} (hph : s.phase = .ready ∨ s.phase = .run)
    (hn : ValidCount n) (b0 b1 b2 b3 : Byte) :
    ∃ s' t', exec (.frame n b0 b1 b2 b3) s = .next s' ∧ exec (.frame n b0 b1 b2 b3) t = .next t' ∧
      AgreeButSends s' t' := by
  have ht : t.phase = s.phase := h.read_eq (f := State.phase) fun _ _ => rfl
  obtain hp | hp := hph
  · exact ⟨_, _, exec_frame_ready b0 b1 b2 b3 hp hn, exec_frame_ready b0 b1 b2 b3 (ht.trans hp) hn,
      (h.frameInit _).flowState⟩
  · exact ⟨_, _, exec_frame_run b0 b1 b2 b3 hp hn, exec_frame_run b0 b1 b2 b3 (ht.trans hp) hn,
      (h.frameProc _).flowState⟩

end Sys2Proof.Machine
end

section
open Sys2Proof Sys2Proof.Machine

/-- Settles O44: the two states agree but for the sends, and the frame keeps that. -/
theorem continuePolicyKeepsMapperState : Obligations.ContinuePolicyKeepsMapperState := by
  intro s rs qs n b0 b1 b2 b3 hpolicy hph hn hlen
  have h : AgreeButSends { s with replies := qs } { s with replies := rs } := ⟨hpolicy, rfl, hlen⟩
  obtain ⟨u, t, hu, ht, hr⟩ := h.exec_frame hph hn b0 b1 b2 b3
  exact ⟨t, u, ht, hu, hr.rest⟩

/-- Settles O46. -/
theorem swcmdIsSent : Obligations.SwcmdIsSent := by
  intro s i v rs hp hv hr
  calc exec (.swcmd s.swCmd[i] v) s
    _ = .next (flowState (emit s.swCmd[i] (bitAction v) s)) := execSwcmd_configured hp hv v
    _ = _ := by rw [emit_ok hr]; rfl

/-- Settles O47. -/
theorem rotcmdIsSent : Obligations.RotcmdIsSent := by
  intro s j rs hp hr
  calc exec (.rotcmd s.rotCmd s.tables.rotCode[j]) s
    _ = .next (flowState (emit s.rotCmd s.tables.rotCode[j] s)) := execRotcmd_position hp j
    _ = _ := by rw [emit_ok hr]; rfl

/-- Settles O48. -/
theorem startcmdIsSent : Obligations.StartcmdIsSent := by
  intro s v rs hp hr
  calc exec (.startcmd s.startCmd v) s
    _ = .next (flowState (emit s.startCmd (bitAction v) s)) := execStartcmd_starter hp v
    _ = _ := by rw [emit_ok hr]; rfl

/-- Settles O49: an err uses its answer, then the policy decides. -/
theorem sendErrorFollowsPolicy : Obligations.SendErrorFollowsPolicy := by
  refine ⟨fun s name a rs hr hpolicy => ?fatal, fun s name a rs hr hpolicy => ?continues⟩
  case fatal =>
    exact ⟨_, (emit_err hr name a).trans (sendError_fatal hpolicy), rfl, rfl,
      (kept_raiseFatal .transport (s.withReplies rs)).config, rfl⟩
  case continues => exact (emit_err hr name a).trans (sendError_continues hpolicy)

/-- Settles O50, clause by clause. -/
theorem unemittableOutputsHaveNoStep : Obligations.UnemittableOutputsHaveNoStep := by
  refine ⟨fun _ _ v hp h => execSwcmd_neverEmitted hp h v, fun _ _ _ hp h => execRotcmd_neverEmitted hp h,
    fun _ _ v hp h => execStartcmd_neverEmitted hp h v, fun _ name v hp => execStartcmd_notAccepted hp name v,
    fun s name v code hp => ?_⟩
  have hn : ¬ (s.phase = .ready ∨ s.phase = .run) := by
    obtain hp | hp := hp <;> simp [hp]
  exact ⟨execSwcmd_notAccepted hn name v, execRotcmd_notAccepted hn name code⟩

end

section
/-! SUPPORT. Fatal errors, operation by operation: with which code and why one ends in FATAL, and that none starts there (60 R201 to R213). -/

namespace Sys2Proof.Machine

/-! ### The causes (60 R201 to R207) -/

/-- The ways an operation `i` run from `s` can end in FATAL, with the code each raises. -/
inductive FaultCause : Instr → State → FaultCode → Prop
  /-- 60 R202. -/
  | tooFew {s : State} (h : boundCount s < 13) : FaultCause .build s .cfgTooFew
  /-- 60 R203. -/
  | badName {s : State} {idx : Byte} {name : CmdName} (h : 14 < idx.toNat) : FaultCause (.cfgsw idx name) s .cfgBadName
  /-- 60 R204. -/
  | missing {s : State} (h : s.rotCmdValid = false ∨ s.startCmdValid = false) : FaultCause .build s .cfgMissing
  /-- 60 R205. -/
  | unregisteredBit {s : State} {n b0 b1 b2 b3 : Byte} (hp : s.phase = .run)
      (h : unregistered s (changedWord s.tables (packSnapshot b0 b1 b2) s.prev) ≠ 0#24) :
      FaultCause (.frame n b0 b1 b2 b3) s .unregisteredBit
  /-- 60 R206. -/
  | rotaryKey {s : State} {n b0 b1 b2 b3 : Byte} (hp : s.phase = .run)
      (h0 : rotKey s.tables (packSnapshot b0 b1 b2) ≠ 0#24) (hr : rotKey s.tables (packSnapshot b0 b1 b2) ≠ s.rotVal)
      (hj : ∀ j : RotIdx, rotKey s.tables (packSnapshot b0 b1 b2) ≠ s.tables.rot[j]) :
      FaultCause (.frame n b0 b1 b2 b3) s .rotaryKey
  /-- 60 R207, in a frame. -/
  | frameSend {s : State} {n b0 b1 b2 b3 : Byte} (hn : ValidCount n) (h : s.tables.sendErrPolicy = .fatal) :
      FaultCause (.frame n b0 b1 b2 b3) s .transport
  /-- 60 R207, at an output kind (log 9). -/
  | outputSend {s : State} {i : Instr} (hi : i.isOutput = true) (h : s.tables.sendErrPolicy = .fatal) :
      FaultCause i s .transport

theorem tableIndex_eq_none_iff {idx : Byte} : tableIndex idx = none ↔ 14 < idx.toNat := by
  refine ⟨fun h => ?_, tableIndex_eq_none⟩
  by_contra hlt
  simp [tableIndex_eq_some (i := ⟨idx.toNat, by omega⟩) rfl] at h

section
variable {i : Instr} {s t : State}

/-- A fatal error in CONFIG: an operation's check fails and nothing but the error is done (60 R202 to R204). -/
theorem exec_config_fatal (hp : s.phase = .config) (h : exec i s = .next t) (ht : t.phase = .fatal) :
    ∃ code, t = raiseFatal code s ∧ FaultCause i s code := by
  have hnf : s.phase ≠ .fatal := by simp [hp]
  rcases config_next hp h with ⟨_, _, _, -, -, rfl⟩ | ⟨_, _, rfl, hi, rfl⟩ | ⟨_, -, rfl⟩ | ⟨_, -, rfl⟩ | ⟨_, -, rfl⟩ |
    ⟨_, -, rfl⟩ | ⟨rfl, rfl⟩
  · exact absurd ht hnf
  · exact ⟨_, rfl, .badName (tableIndex_eq_none_iff.1 hi)⟩
  · exact absurd ht hnf
  · exact absurd ht hnf
  · exact absurd ht hnf
  · exact absurd ht hnf
  · obtain ⟨hc, hb⟩ | ⟨-, hm, hb⟩ | ⟨-, -, -, hb⟩ := buildState_cases s
    · exact ⟨_, hb, .tooFew hc⟩
    · exact ⟨_, hb, .missing hm⟩
    · simp [hb] at ht

/-- FRAME.PROC raises three of the codes (41 R127). -/
theorem procC.faultCause {n b0 b1 b2 b3 : Byte} {k : FaultCode} (h : procC (packSnapshot b0 b1 b2) s k)
    (hp : s.phase = .run) (hn : ValidCount n) : FaultCause (.frame n b0 b1 b2 b3) s k := by
  cases k with
  | unregisteredBit => exact .unregisteredBit hp h
  | rotaryKey =>
    obtain ⟨h0, hr, hj⟩ := h
    exact .rotaryKey hp h0 hr hj
  | transport => exact .frameSend hn h
  | noFault => exact h.elim
  | cfgTooFew => exact h.elim
  | cfgBadName => exact h.elim
  | cfgMissing => exact h.elim

theorem execFrame_fatal {n b0 b1 b2 b3 : Byte} (h : execFrame n b0 b1 b2 b3 s = .next t) (ht : t.phase = .fatal) :
    FaultCause (.frame n b0 b1 b2 b3) s t.faultCode := by
  obtain ⟨-, hp, rfl⟩ | ⟨hn, hp, rfl⟩ | ⟨hn, hp, rfl⟩ := execFrame_next h
  · simp [ht] at hp
  · obtain ⟨-, ⟨hrun, -⟩ | ⟨-, hcode, hpolicy⟩⟩ := frameInit_kept (packSnapshot b0 b1 b2) s
    · simp [hrun] at ht
    · exact hcode ▸ .frameSend hn hpolicy
  · obtain ⟨-, ⟨hsame, -⟩ | ⟨-, hcause⟩⟩ := frameProc_kept (packSnapshot b0 b1 b2) s
    · simp [hsame, hp] at ht
    · exact hcause.faultCause hp hn

theorem emit_fatal {name : CmdName} {a : Action} (he : Emittable s ⟨name, a⟩) (hp : s.phase = .ready ∨ s.phase = .run)
    (hi : i.isOutput = true) (ht : (flowState (emit name a s)).phase = .fatal) :
    FaultCause i s (flowState (emit name a s)).faultCode := by
  obtain ⟨-, ⟨hsame, -⟩ | ⟨-, hcause⟩⟩ := output_cases (C := FaultCause i s) he (.outputSend hi) rfl
  · simp [← hsame, ht] at hp
  · exact hcause

/-- Everything an operation that ends in FATAL can have done: it met one of the causes. -/
theorem exec_fatal (h : exec i s = .next t) (ht : t.phase = .fatal) : FaultCause i s t.faultCode := by
  by_cases hp : s.phase = .config
  case pos =>
    obtain ⟨code, rfl, hcause⟩ := exec_config_fatal hp h ht
    exact hcause
  case neg =>
    cases i with
    | cfgsw idx name => exact absurd (inConfig_next h).1 hp
    | cfgrot name => exact absurd (inConfig_next h).1 hp
    | cfgstart name => exact absurd (inConfig_next h).1 hp
    | cfggrt name => exact absurd (inConfig_next h).1 hp
    | cfggpr name => exact absurd (inConfig_next h).1 hp
    | build => exact absurd (inConfig_next h).1 hp
    | frame n b0 b1 b2 b3 => exact execFrame_fatal h ht
    | swcmd name v =>
      obtain ⟨hp, he, rfl⟩ := swcmd_next h
      exact emit_fatal he hp rfl ht
    | rotcmd name code =>
      obtain ⟨hp, he, rfl⟩ := rotcmd_next h
      exact emit_fatal he hp rfl ht
    | startcmd name v =>
      obtain ⟨hp, he, rfl⟩ := startcmd_next h
      exact emit_fatal he (.inr hp) rfl ht

/-- An operation that ends in FATAL keeps the configuration and has only extended `out` (60 R213). -/
theorem exec_fatal_kept (h : exec i s = .next t) (ht : t.phase = .fatal) : Kept s t := by
  by_cases hp : s.phase = .config
  · obtain ⟨code, rfl, -⟩ := exec_config_fatal hp h ht
    exact kept_raiseFatal code s
  · exact exec_kept hp h

theorem FaultCause.ne_noFault {k : FaultCode} (h : FaultCause i s k) : k ≠ .noFault := by
  rintro rfl
  cases h

/-! ### BUILD's checks (60 R202, R204, R210) -/

theorem execBuild_tooFew (hp : s.phase = .config) (hc : boundCount s < 13) :
    execBuild s = .next (raiseFatal .cfgTooFew s) := by
  rw [execBuild, inConfig_config hp, buildState, minBound, if_pos hc]

theorem execBuild_missing (hp : s.phase = .config) (hc : 13 ≤ boundCount s)
    (hm : s.rotCmdValid = false ∨ s.startCmdValid = false) : execBuild s = .next (raiseFatal .cfgMissing s) := by
  rw [execBuild, inConfig_config hp, buildState, minBound, if_neg (Nat.not_lt.2 hc), if_pos hm]

/-! ### In FATAL (60 R212) -/

theorem exec_refused_of_fatal (i : Instr) (hp : s.phase = .fatal) : ∃ r, exec i s = .refused r := by
  have hc : s.phase ≠ .config := by simp [hp]
  have hr : ¬ (s.phase = .ready ∨ s.phase = .run) := by simp [hp]
  have hrun : s.phase ≠ .run := by simp [hp]
  cases i with
  | cfgsw idx name => exact ⟨_, inConfig_refused hc⟩
  | cfgrot name => exact ⟨_, inConfig_refused hc⟩
  | cfgstart name => exact ⟨_, inConfig_refused hc⟩
  | cfggrt name => exact ⟨_, inConfig_refused hc⟩
  | cfggpr name => exact ⟨_, inConfig_refused hc⟩
  | build => exact ⟨_, inConfig_refused hc⟩
  | frame n b0 b1 b2 b3 =>
    by_cases hn : n.toNat ≤ 4
    · exact ⟨_, execFrame_refused (b3 := b3) (.inr hp) hn⟩
    · exact ⟨_, if_pos (decide_eq_true (Nat.not_le.1 hn))⟩
  | swcmd name v => exact ⟨_, execSwcmd_notAccepted hr name v⟩
  | rotcmd name code => exact ⟨_, execRotcmd_notAccepted hr name code⟩
  | startcmd name v => exact ⟨_, execStartcmd_notAccepted hrun name v⟩

/-- In FATAL a step refuses: the stream starts no operation, or one that is refused. -/
theorem step_refused_of_fatal (hp : s.phase = .fatal) : ∃ r, step s = .refused r := by
  cases hd : decode s.input with
  | error e => exact ⟨_, step_refused rfl hd⟩
  | ok p =>
    obtain ⟨i, rest⟩ := p
    obtain ⟨r, hr⟩ := exec_refused_of_fatal (s := { s with input := rest }) i hp
    exact ⟨r, by rw [step, fetch_eq_ok hd]; exact hr⟩

end

end Sys2Proof.Machine
end

section
/-! SUPPORT. What a frame has sent by the time it ends, under the policy `fatal`, whatever the sends are answered: all of a sequence its rules allow, or a front part of one (60 R213). -/

namespace Sys2Proof.Machine

/-- A statement run from `s` that reached `f`: it went on and has sent all of `l`, or a fatal error of any code ended it after a front part of `l`. -/
def SendsFront (s : State) (l : List Command) : Flow → Prop
  | .on t => t.out = s.out ++ l
  | .dead t => ∃ k, t.out = s.out ++ l.take k

theorem Emits.sendsFront {s : State} {l : List Command} {f : Flow} (h : Emits s l f) : SendsFront s l f := by
  cases f with
  | on t =>
    obtain ⟨-, ho, -⟩ := h
    exact ho
  | dead t =>
    obtain ⟨-, -, k, -, ho, -⟩ := h
    exact ⟨k, ho⟩

theorem SendsFront.out {s : State} {l : List Command} {f : Flow} (h : SendsFront s l f) :
    ∃ k, (flowState f).out = s.out ++ l.take k := by
  cases f with
  | on t => exact ⟨l.length, by rw [List.take_length]; exact h⟩
  | dead t => exact h

theorem sendsFront_fatal (code : FaultCode) (s : State) (l : List Command) : SendsFront s l (fatal code s) :=
  ⟨0, by simp⟩

/-- A statement that follows bookkeeping which sends nothing. -/
theorem SendsFront.after {s t : State} {l : List Command} {f : Flow} (h : SendsFront t l f) (ho : t.out = s.out) :
    SendsFront s l f := by
  cases f <;> rwa [SendsFront, ← ho]

/-- Composition: an error in the first statement leaves a front part of what both would send. -/
theorem SendsFront.andThen {s : State} {l m : List Command} {f : Flow} {g : State → Flow} (h : SendsFront s l f)
    (hg : ∀ t, f = .on t → SendsFront t m (g t)) : SendsFront s (l ++ m) (andThen f g) := by
  cases f with
  | dead t =>
    obtain ⟨k, hk⟩ := h
    refine ⟨min k l.length, ?_⟩
    rw [hk, List.take_append_of_le_length (Nat.min_le_right _ _), ← List.take_eq_take_min]
  | on t =>
    have hu := hg t rfl
    have ho : t.out = s.out ++ l := h
    rw [Machine.andThen]
    cases hf : g t with
    | on u =>
      rw [hf, SendsFront, ho, List.append_assoc] at hu
      exact hu
    | dead u =>
      rw [hf, SendsFront, ho] at hu
      obtain ⟨k, hk⟩ := hu
      exact ⟨l.length + k, by rw [hk, List.take_length_add_append, List.append_assoc]⟩

/-- A statement followed by one that goes on and sends nothing. -/
theorem SendsFront.andThen_on {s : State} {l : List Command} {f : Flow} {g : State → State} (h : SendsFront s l f)
    (hg : ∀ t, (g t).out = t.out) : SendsFront s l (Machine.andThen f fun t => .on (g t)) := by
  cases f with
  | on t => exact (hg t).trans h
  | dead t => exact h

/-! ### The scan (42 R142, R144) -/

theorem Went.flipCommand {s t : State} (h : Went s t) (hl : t.swLast = s.swLast) : flipCommand t = flipCommand s := by
  rw [flipCommand_eq, flipCommand_eq, h.config.switchCommand, hl]

/-- With an unregistered bit in the change word, visiting a part of the hits sends that part's flips. -/
theorem emits_scanLoop_hits {w : Snapshot} {part : List SwIdx} {s : State} (hp : s.tables.sendErrPolicy = .fatal)
    (hu : unregistered s w ≠ 0#24) (hn : part.Nodup) (hm : part ⊆ hits s w) :
    Emits s (part.map (flipCommand s)) (scanLoop w part s) := by
  have h := emits_scanLoop (w := w) hp hn (fun _ hi => (mem_hits.1 (hm hi)).1)
    (.inr fun _ hi => bit_ne_of_unregistered hu (mem_hits.1 (hm hi)).1)
  rwa [List.filter_eq_self.2 fun _ hi => (mem_hits.1 (hm hi)).2] at h

/-- A faulting scan: a part of the hits, which is the front of an order of them, then the fault. -/
theorem sendsFront_faultingScan {w : Snapshot} {s : State} (hp : s.tables.sendErrPolicy = .fatal)
    (hu : unregistered s w ≠ 0#24) :
    SendsFront s ((arrange (nextChoice s) (hits s w)).map (flipCommand s)) (faultingScan w s) := by
  have hw : Went s (afterChoice (afterChoice s)) := (went_afterChoice s).trans (went_afterChoice (afterChoice s))
  have hpart := emits_scanLoop_hits (w := w) (s := afterChoice (afterChoice s)) (by rwa [hw.tables])
    (by rwa [hw.unregistered]) (nodup_faultingPart (nextChoice s) (nextChoice (afterChoice s)) (nodup_hits s w))
    (by rw [hw.hits]; exact (faultingPart_subperm _ _ _).subset)
  rw [hw.flipCommand (by simp)] at hpart
  rw [← List.take_append_drop (nextChoice (afterChoice s) % ((hits s w).length + 1)) (arrange (nextChoice s) (hits s w)),
    List.map_append]
  exact (hpart.sendsFront.after (by simp)).andThen fun t _ => sendsFront_fatal _ t _

/-- The scan: the hits' flips in some order, in full or up to the fault. -/
theorem sendsFront_switchScan {c p : Snapshot} {s : State} (hp : s.tables.sendErrPolicy = .fatal)
    (hV : s.tables.MasksValid) :
    ∃ order : List SwIdx, order.Perm (hits s (changedWord s.tables c p)) ∧
      SendsFront s (order.map (flipCommand s)) (switchScan c p s) := by
  by_cases hu : unregistered s (changedWord s.tables c p) = 0#24
  case pos =>
    obtain ⟨order, ho, he⟩ := emits_switchScan hp hV hu
    exact ⟨order, ho, he.sendsFront⟩
  case neg =>
    exact ⟨_, arrange_perm _ _, by rw [switchScan_unregistered hu]; exact sendsFront_faultingScan hp hu⟩

/-! ### The rotary step (43 R161, R162, R167) -/

/-- What the rotary step may send from `s`, whatever the key: the last part of a `ChangeEmission`. -/
def RotaryEmission (s : State) (key : Snapshot) (rc : List Command) : Prop :=
  ((key = 0#24 ∨ key = s.rotVal) ∧ rc = []) ∨
  (∃ j : RotIdx, key = s.tables.rot[j] ∧ key ≠ s.rotVal ∧ rc = moveCommands s j) ∨
  (key ≠ 0#24 ∧ key ≠ s.rotVal ∧ (∀ j : RotIdx, key ≠ s.tables.rot[j]) ∧
    (rc = [] ∨ (s.rotVal = rotStart s.tables ∧ rc = [⟨s.startCmd, 0⟩])))

theorem RotaryEmission.congr {s t : State} {key : Snapshot} {rc : List Command} (hw : Went s t)
    (hr : t.rotVal = s.rotVal) (h : RotaryEmission t key rc) : RotaryEmission s key rc := by
  obtain ⟨-, -, -, -, -, hstart, -⟩ := hw.config
  rwa [RotaryEmission, moveCommands_congr hw hr, hw.tables, hr, hstart] at h

theorem emits_leaveStart {s : State} (hp : s.tables.sendErrPolicy = .fatal) :
    Emits s (if s.rotVal = rotStart s.tables then [⟨s.startCmd, 0⟩] else []) (leaveStart s) := by
  rw [leaveStart]
  split
  · exact emits_emit hp _ _
  · exact emits_nil s

/-- A bad key: the step-3 deactivation or nothing, then the fault; a failed deactivation leaves nothing sent. -/
theorem sendsFront_badKey {s : State} (hp : s.tables.sendErrPolicy = .fatal) :
    ∃ lv : List Command, (lv = [] ∨ (s.rotVal = rotStart s.tables ∧ lv = [⟨s.startCmd, 0⟩])) ∧
      SendsFront s lv (badKey s) := by
  rw [badKey]
  split
  case isTrue => exact ⟨[], .inl rfl, (sendsFront_fatal _ _ _).after (by simp)⟩
  case isFalse =>
    have hl := (emits_leaveStart (s := afterChoice s) (by rwa [afterChoice_tables])).sendsFront.after (s := s) (by simp)
    refine ⟨_, ?_, hl.andThen (m := []) fun t _ => sendsFront_fatal _ t []⟩
    by_cases hr : s.rotVal = rotStart s.tables <;> simp [hr]

theorem sendsFront_rotaryStep {c : Snapshot} {s : State} (hp : s.tables.sendErrPolicy = .fatal)
    (hV : s.tables.MasksValid) :
    ∃ rc, RotaryEmission s (rotKey s.tables c) rc ∧ SendsFront s rc (rotaryStep c s) := by
  by_cases hq : rotKey s.tables c = 0#24 ∨ rotKey s.tables c = s.rotVal
  case pos => exact ⟨[], .inl ⟨hq, rfl⟩, by rw [rotaryStep_silent hq]; exact (emits_nil s).sendsFront⟩
  case neg =>
    obtain ⟨h0, hr⟩ := not_or.1 hq
    by_cases hj : ∃ j : RotIdx, rotKey s.tables c = s.tables.rot[j]
    case pos =>
      obtain ⟨j, hj⟩ := hj
      exact ⟨_, .inr (.inl ⟨j, hj, hr, rfl⟩), (emits_rotaryStep hp hV hj (hj ▸ hr)).sendsFront⟩
    case neg =>
      rw [not_exists] at hj
      obtain ⟨lv, hlv, hs⟩ := sendsFront_badKey hp
      exact ⟨lv, .inr (.inr ⟨h0, hr, hj, hlv⟩), by rwa [rotaryStep_badKey h0 hr hj]⟩

/-! ### FRAME (41 R122, R127) -/

/-- `process` sends a sequence its rules allow, in full or up to a fatal error. After a fatal error in the scan `rot_val` is free, so the rotary step's part is then taken from the state the scan started in. -/
theorem sendsFront_process {c : Snapshot} {s : State} (hp : s.tables.sendErrPolicy = .fatal) (hV : s.tables.MasksValid) :
    ∃ l, ChangeEmission s c l ∧ SendsFront s l (process c s.prev s) := by
  obtain ⟨order, ho, hscan⟩ := sendsFront_switchScan (c := c) (p := s.prev) hp hV
  have hs : Sound (fun _ => True) s (switchScan c s.prev s) := sound_switchScan (fun _ => trivial) fun _ => trivial
  suffices ∃ rc, RotaryEmission s (rotKey s.tables c) rc ∧
      ∀ t, switchScan c s.prev s = .on t → SendsFront t rc (rotaryStep c t) by
    obtain ⟨rc, hrc, hstep⟩ := this
    exact ⟨_, ⟨_, rc, rfl, ho.map _, hrc⟩, hscan.andThen hstep⟩
  cases hu : switchScan c s.prev s with
  | dead u =>
    obtain ⟨rc, hrc, -⟩ := sendsFront_rotaryStep (c := c) hp hV
    exact ⟨rc, hrc, by simp⟩
  | on u =>
    rw [hu, sound_on] at hs
    obtain ⟨rc, hrc, hstep⟩ := sendsFront_rotaryStep (c := c) (s := u) (by rwa [hs.tables]) (by rwa [hs.tables])
    rw [hs.tables] at hrc
    exact ⟨rc, hrc.congr hs (switchScan_rotVal hu), by rintro t ⟨⟩; exact hstep⟩

theorem frameInit_out {c : Snapshot} {s : State} (hp : s.tables.sendErrPolicy = .fatal) :
    ∃ l, InitialEmission s c l ∧ ∃ k, (flowState (frameInit c s)).out = s.out ++ l.take k := by
  obtain ⟨l, hl, he⟩ := emits_initialise (c := c) (s := { s with cur := c }) hp
  have hs : SendsFront { s with cur := c } l (frameInit c s) := he.sendsFront.andThen_on fun _ => rfl
  exact ⟨l, hl, hs.out⟩

theorem frameProc_out {c : Snapshot} {s : State} (hp : s.tables.sendErrPolicy = .fatal) (hV : s.tables.MasksValid) :
    ∃ l, ChangeEmission s c l ∧ ∃ k, (flowState (frameProc c s)).out = s.out ++ l.take k := by
  obtain ⟨l, hl, hproc⟩ := sendsFront_process (c := c) (s := { s with cur := c }) hp hV
  have hs : SendsFront { s with cur := c } l (frameProc c s) := hproc.andThen_on fun _ => rfl
  exact ⟨l, hl, hs.out⟩

end Sys2Proof.Machine
end

section
open Sys2Proof Sys2Proof.Machine

/-- Settles O53: the whole sequence that the frame's sends would make is an allowed one, and a fatal error leaves a front part of it. -/
theorem fatalOutIsAllowedPrefix : Obligations.FatalOutIsAllowedPrefix := by
  intro s t n b0 b1 b2 b3 hpolicy h ht
  obtain ⟨-, hp, rfl⟩ | ⟨-, hp, rfl⟩ | ⟨-, hp, rfl⟩ := execFrame_next (b3 := b3) h
  · simp [ht] at hp
  · exact ⟨fun _ => frameInit_out hpolicy, fun hrun => by simp [hp] at hrun⟩
  · exact ⟨fun hready => by simp [hp] at hready, fun _ hV => frameProc_out hpolicy hV⟩

/-- Settles O18: no cause raises NONE. -/
theorem fatalErrorGuarantees : Obligations.FatalErrorGuarantees := by
  intro i s t h ht
  obtain ⟨hconfig, -, -, l, hl, -⟩ := exec_fatal_kept h ht
  exact ⟨(exec_fatal h ht).ne_noFault, hconfig, l, hl⟩

/-- Settles O19, cause by cause. -/
theorem faultCauses : Obligations.FaultCauses := by
  intro i s t h ht
  have hcause := exec_fatal h ht
  clear h ht
  generalize t.faultCode = k at hcause ⊢
  cases hcause with
  | tooFew h => exact ⟨rfl, h⟩
  | badName h => exact ⟨_, _, rfl, h⟩
  | missing h => exact ⟨rfl, h⟩
  | unregisteredBit hp h => exact ⟨_, _, _, _, _, rfl, hp, h⟩
  | rotaryKey hp h0 hr hj => exact ⟨_, _, _, _, _, rfl, hp, h0, hr, hj⟩
  | frameSend hn h => exact ⟨h, .inl ⟨_, _, _, _, _, rfl, by unfold ValidCount at hn; omega⟩⟩
  | outputSend hi h => exact ⟨h, .inr hi⟩

/-- Settles O12. -/
theorem onlyResetLeavesFatal : Obligations.OnlyResetLeavesFatal :=
  ⟨fun i _ hp => exec_refused_of_fatal i hp, fun _ hp => step_refused_of_fatal hp, fun _ => rfl⟩

/-- Settles O28, by which of its ends BUILD comes to. -/
theorem buildChecks : Obligations.BuildChecks :=
  ⟨fun s hp hc => ⟨_, execBuild_tooFew hp hc, rfl, rfl, (kept_raiseFatal _ s).config, rfl⟩,
    fun s hp hc hm => ⟨_, execBuild_missing hp hc hm, rfl, rfl, (kept_raiseFatal _ s).config, rfl⟩⟩

end
